-- ==== Sys2Proof/Word.lean ====
section
/-! DEFINITION. The machine's fixed-width values: words and register identifiers. -/

namespace Sys2Proof

/-- A 32-bit value: an instruction word, a register, a data-memory cell (`00_scope.md` R6 `XLEN`, R7). -/
abbrev Word := BitVec 32

/-- A register identifier, `x0` to `x31`; the 5-bit string of a word names it by its value (`10_state.md` R21). -/
abbrev RegId := Fin 32

end Sys2Proof
end

