-- ==== Sys2Proof/Config.lean ====
section
/-! DEFINITION. Values fixed for the hardware that are not encodings, and the defaults of the launch parameters
(`00_scope.md` R6). The parameters that say which word is which instruction (opcodes, function codes, the halt
word) stand at the head of `Decode.lean`. The window size `N_INSTR` is OPEN (D6): it is the length of the
instruction table a launch supplies. No result is left undefined (`46_step_loop_trace.md` R164), so there is no
free value here. -/

namespace Sys2Proof

/-- What a data-memory key reads as that nothing has stored to: the all-zero word (`20_memory.md` R43, R44). -/
def Config.memDefault : Word := 0#32

/-- Every data address is below this bound (`20_memory.md` R40, R48). -/
abbrev Config.addrBound : Nat := 2 ^ 32

/-- The default of the launch parameter `INIT_X`, all zero (`00_scope.md` R6; DESIGN CHOICE for the value after
reset, log entry 5). -/
def Config.initRegs : Vector Word 32 := Vector.replicate 32 0#32

/-- The default of the initial `program` value, zero and never observable (`10_state.md` R35; DESIGN CHOICE, log
entry 6). -/
def Config.initProgram : Word := 0#32

end Sys2Proof
end

