-- ==== Sys2Proof/Machine/State.lean ====
section
/-! DEFINITION. The machine's state as plain data, the reasons a step can stop, and the state after reset
(`10_state.md` R20 to R35). -/

namespace Sys2Proof.Machine

/-- The run control's two states (`10_state.md` R29). -/
inductive RunState where
  | running
  | halted
  deriving DecidableEq, Repr

/-- One trace entry: the `program` slot and the 32 registers after an executed step (`10_state.md` R30,
`46_step_loop_trace.md` R160). -/
structure TraceEntry where
  program : Word
  regs : Vector Word 32
  deriving DecidableEq, Repr

/-- The data memory `M`: the cells that do not read as `Config.memDefault`, each a 32-bit word under its 32-bit key
(`20_memory.md` R40, R41). The smallest unit the spec addresses is the whole cell, so a pair holds a word and not
a byte (R42, R50; DESIGN CHOICE for the list shape, log entry 7). -/
abbrev Memory := List (Nat × Word)

/-- The canonical form: keys strictly rising, every key a 32-bit address, no cell listed that an unlisted key would
read the same as. -/
abbrev Memory.wf (m : Memory) : Prop :=
  m.Pairwise (fun c d => c.1 < d.1) ∧ ∀ c ∈ m, c.1 < Config.addrBound ∧ c.2 ≠ Config.memDefault

/-- Everything the machine holds: the six items of `10_state.md` R20, and the instruction table, a launch parameter
no step changes (R20, `20_memory.md` R51; DESIGN CHOICE that it stands here, log entry 2). -/
structure State where
  /-- `x[0..31]`, none hardwired (R21, R22). -/
  regs : Vector Word 32
  /-- The program counter, an integer without a width (R24, R26). -/
  pc : Nat
  /-- The `program` slot, the trace's 32-bit copy of the pc (R27). -/
  program : Word
  /-- RUNNING or HALTED (R29). -/
  run : RunState
  /-- The data memory (`20_memory.md` R40). -/
  mem : Memory
  /-- The trace, oldest entry first (R30). -/
  trace : List TraceEntry
  /-- The words of `IT` at keys 0, 4, ...; `N_INSTR` is its length (`00_scope.md` R6, R7). Empty: nothing launched. -/
  instrTable : List Word
  deriving DecidableEq, Repr

/-- Why a step faults: the spec's two "undefined preconditions" (`60_exceptions.md` R171). A faulting step writes
nothing (R177). -/
inductive Fault where
  /-- The loop raises it when the pc is inside the window and is no key of the instruction table
  (R175). Safe: the source gives the case no behaviour (log entry 9). -/
  | fetchUnmapped (pc : Nat)
  /-- `lw` and `sw` raise it when the effective address is `2^32` or more (R176). Safe: the source gives the case no
  behaviour (log entry 8). -/
  | addressOverflow (ea : Nat)
  deriving DecidableEq, Repr

/-- Why a step gives no meaning. -/
inductive Refusal where
  /-- An instruction that has no meaning yet: raised by no arm of this model. Safe. -/
  | notModelled (mnemonic : String)
  /-- The loop raises it when no instruction table has been launched: the spec has no such machine (`00_scope.md`
  R7, `N_INSTR >= 1`). Safe: the model stops where the spec is silent (log entry 3). -/
  | noInstructionTable
  deriving DecidableEq, Repr

/-- What a step or a meaning answers. -/
abbrev Result := Host.Outcome State Fault Refusal

/-- The state after reset, which is the launch with every parameter at its default (`10_state.md` R35,
`70_reset_and_hazards.md` R190, R191). The instruction table has no default: none is loaded (log entry 3). -/
def State.reset : State where
  regs := Config.initRegs
  pc := 0
  program := Config.initProgram
  run := .running
  mem := []
  trace := []
  instrTable := []

end Sys2Proof.Machine
end

