-- ==== Sys2Proof/Machine/Operands.lean ====
section
/-! DEFINITION. Reading operands: the three primitives of the register file (`00_scope.md` R10 to R15), register
reads, and the sums an instruction forms from them. All arithmetic is on unbounded integers. -/

namespace Sys2Proof.Machine

/-- `to_integer`: the unsigned value of a bit string (`00_scope.md` R10). -/
def toInteger {n : Nat} (b : BitVec n) : Nat := b.toNat

/-- `to_binary32`: any integer modulo `2^32` (`00_scope.md` R11). -/
def toBinary32 (n : Int) : Word := BitVec.ofInt 32 n

/-- `qext32`: the hardware's extension of a field of `n <= 32` bits. A clear top bit PREPENDS zeros; a set top bit
APPENDS ones, which moves the field to the high end (`00_scope.md` R13). -/
def qext32 {n : Nat} (b : BitVec n) : Word :=
  if b.msb then (b ++ BitVec.allOnes (32 - n)).setWidth 32 else b.setWidth 32

/-- An immediate as every executor uses it: extended, then read as an unsigned number (`30_encoding.md` R68 to R72). -/
def extendImm {n : Nat} (imm : BitVec n) : Nat := toInteger (qext32 imm)

/-- `x[r]` as the 32 bits it holds; `x0` is an ordinary register (`10_state.md` R22, R23). -/
def State.reg (s : State) (r : RegId) : Word := s.regs[r]

/-- `x[r]` as an executor reads it, an unsigned integer (`00_scope.md` R18). -/
def State.readReg (s : State) (r : RegId) : Nat := toInteger (s.reg r)

/-- `x[rs1] + immI` or `x[rs1] + immS`, not reduced: the effective address of `lw` and `sw`, the sum of `addi`, the
target of `jalr` (`41_i_type.md` R113, `42_s_type.md` R120, `20_memory.md` R48). -/
def State.baseOffset (s : State) (rs1 : RegId) (imm12 : BitVec 12) : Nat := s.readReg rs1 + extendImm imm12

/-- `pc + immB` or `pc + immJ`, not reduced, masked or checked (`10_state.md` R25, R26). -/
def State.pcOffset {n : Nat} (s : State) (imm : BitVec n) : Nat := s.pc + extendImm imm

/-- `pc + 4`: the next instruction, and the link value of `jal` and `jalr` (`10_state.md` R25). -/
def State.nextPc (s : State) : Nat := s.pc + 4

end Sys2Proof.Machine
end

