-- ==== Sys2Proof/Machine/Flags.lean ====
section
/-! DEFINITION. The conditions. The hardware has no flags (`10_state.md` R31): a branch or a set-less-than compares
two register values directly, always as unsigned integers (`40_r_type.md` R101). -/

namespace Sys2Proof.Machine

/-- `beq`'s condition (`43_b_type.md` R125). -/
def condEq (a b : Nat) : Bool := a == b

/-- `bne`'s condition (R126). -/
def condNe (a b : Nat) : Bool := a != b

/-- `blt`'s condition, and that of `slt` and `sltu`: unsigned (R127, `40_r_type.md` R93, R94). -/
def condLt (a b : Nat) : Bool := decide (a < b)

/-- `bge`'s condition: unsigned (R128). -/
def condGe (a b : Nat) : Bool := decide (b ≤ a)

end Sys2Proof.Machine
end

