-- ==== Sys2Proof/Syntax.lean ====
section
/-! DEFINITION. The instructions, one constructor per row of `spec/opcode_table.json`. Immediates are the assembled
fields BEFORE extension (`30_encoding.md` R68 to R72, R83): a branch's has 13 bits and a jump's 21, their bit 0
included. A word that is no instruction has no constructor: the decoder rejects it by name (`DecodeReject`). -/

namespace Sys2Proof

/-- The halt word and the twenty instructions (`00_scope.md` R2). -/
inductive Instr where
  /-- The halt sentinel (`46_step_loop_trace.md` R154). -/
  | halt
  /-- `add rd, rs1, rs2` (`40_r_type.md` R90). -/
  | add (rd rs1 rs2 : RegId)
  /-- `sub rd, rs1, rs2` (R91). -/
  | sub (rd rs1 rs2 : RegId)
  /-- `sll rd, rs1, rs2` (R92). -/
  | sll (rd rs1 rs2 : RegId)
  /-- `slt rd, rs1, rs2` (R93). -/
  | slt (rd rs1 rs2 : RegId)
  /-- `sltu rd, rs1, rs2` (R94). -/
  | sltu (rd rs1 rs2 : RegId)
  /-- `xor rd, rs1, rs2` (R95). -/
  | xor (rd rs1 rs2 : RegId)
  /-- `srl rd, rs1, rs2` (R96). -/
  | srl (rd rs1 rs2 : RegId)
  /-- `or rd, rs1, rs2` (R97). -/
  | or (rd rs1 rs2 : RegId)
  /-- `and rd, rs1, rs2` (R98). -/
  | and (rd rs1 rs2 : RegId)
  /-- `lw rd, imm12(rs1)` (`41_i_type.md` R110). -/
  | lw (rd rs1 : RegId) (imm12 : BitVec 12)
  /-- `addi rd, rs1, imm12` (R111). -/
  | addi (rd rs1 : RegId) (imm12 : BitVec 12)
  /-- `jalr rd, imm12(rs1)` (R112). -/
  | jalr (rd rs1 : RegId) (imm12 : BitVec 12)
  /-- `sw rs2, imm12(rs1)`: `rs1` is the base, `rs2` the value stored (`42_s_type.md` R120). -/
  | sw (rs1 rs2 : RegId) (imm12 : BitVec 12)
  /-- `beq rs1, rs2, imm13` (`43_b_type.md` R125). -/
  | beq (rs1 rs2 : RegId) (imm13 : BitVec 13)
  /-- `bne rs1, rs2, imm13` (R126). -/
  | bne (rs1 rs2 : RegId) (imm13 : BitVec 13)
  /-- `blt rs1, rs2, imm13` (R127). -/
  | blt (rs1 rs2 : RegId) (imm13 : BitVec 13)
  /-- `bge rs1, rs2, imm13` (R128). -/
  | bge (rs1 rs2 : RegId) (imm13 : BitVec 13)
  /-- `lui rd, imm20` (`44_u_type.md` R135). -/
  | lui (rd : RegId) (imm20 : BitVec 20)
  /-- `auipc rd, imm20` (R136). -/
  | auipc (rd : RegId) (imm20 : BitVec 20)
  /-- `jal rd, imm21` (`45_j_type.md` R140). -/
  | jal (rd : RegId) (imm21 : BitVec 21)
  deriving DecidableEq, Repr

end Sys2Proof
end

