-- ==== Sys2Proof/WellFormed.lean ====
section
/-! DEFINITION. Which instruction terms some word stands for. -/

namespace Sys2Proof

/-- An immediate whose bit 0 is not stored in the word and is fixed 0 (`30_encoding.md` R65, R67). -/
def evenImm {n : Nat} (imm : BitVec n) : Bool := !imm.getLsbD 0

/-- An instruction term is well formed when some word decodes to it.  Every field value is admitted but two kinds:
a branch or jump immediate with bit 0 set (R65, R67, R83), and `beq x0, x0, 0`, whose word is the halt sentinel and
is never executed as a branch (R75, R81). -/
def Instr.wf : Instr → Bool
  | .halt => true
  | .add _ _ _ => true
  | .sub _ _ _ => true
  | .sll _ _ _ => true
  | .slt _ _ _ => true
  | .sltu _ _ _ => true
  | .xor _ _ _ => true
  | .srl _ _ _ => true
  | .or _ _ _ => true
  | .and _ _ _ => true
  | .lw _ _ _ => true
  | .addi _ _ _ => true
  | .jalr _ _ _ => true
  | .sw _ _ _ => true
  | .beq rs1 rs2 imm13 => evenImm imm13 && !(rs1 == 0 && rs2 == 0 && imm13 == 0#13)
  | .bne _ _ imm13 => evenImm imm13
  | .blt _ _ imm13 => evenImm imm13
  | .bge _ _ imm13 => evenImm imm13
  | .lui _ _ => true
  | .auipc _ _ => true
  | .jal _ imm21 => evenImm imm21

end Sys2Proof
end

