-- ==== Sys2Proof/Decode.lean ====
section
/-! DEFINITION. From words to instructions and back: the encoding parameters, the fields, the decoder, the encoder
and the opcode table's rows (`30_encoding.md`). An instruction is one 32-bit word, fetched whole, and no byte order
exists (R60, `20_memory.md` R50, R52), so the decoder's input is a word. -/

namespace Sys2Proof

/-! ### Parameters (`00_scope.md` R6; values of D1, D2, D5 `[from general knowledge]`, PRESUMED, log entry 1) -/

/-- The halt sentinel `HALT_WORD` (R81). -/
def Config.haltWord : Word := 0x00000063#32

/-- `OPC_R` (R73). -/
def Config.opcR : BitVec 7 := 0b0110011#7
/-- `OPC_LOAD` (R73). -/
def Config.opcLoad : BitVec 7 := 0b0000011#7
/-- `OPC_OPIMM` (R73). -/
def Config.opcOpImm : BitVec 7 := 0b0010011#7
/-- `OPC_JALR` (R73). -/
def Config.opcJalr : BitVec 7 := 0b1100111#7
/-- `OPC_STORE` (R73). -/
def Config.opcStore : BitVec 7 := 0b0100011#7
/-- `OPC_BRANCH` (R73). -/
def Config.opcBranch : BitVec 7 := 0b1100011#7
/-- `OPC_LUI` (R73). -/
def Config.opcLui : BitVec 7 := 0b0110111#7
/-- `OPC_AUIPC` (R73). -/
def Config.opcAuipc : BitVec 7 := 0b0010111#7
/-- `OPC_JAL` (R73). -/
def Config.opcJal : BitVec 7 := 0b1101111#7

/-- `funct7` of every R instruction but `sub` (R74). -/
def Config.f7Base : BitVec 7 := 0b0000000#7
/-- `funct7` of `sub` (R74). -/
def Config.f7Sub : BitVec 7 := 0b0100000#7

/-- `funct3` of `add` and `sub` (R74). -/
def Config.f3AddSub : BitVec 3 := 0b000#3
/-- `funct3` of `sll` (R74). -/
def Config.f3Sll : BitVec 3 := 0b001#3
/-- `funct3` of `slt` (R74). -/
def Config.f3Slt : BitVec 3 := 0b010#3
/-- `funct3` of `sltu` (R74). -/
def Config.f3Sltu : BitVec 3 := 0b011#3
/-- `funct3` of `xor` (R74). -/
def Config.f3Xor : BitVec 3 := 0b100#3
/-- `funct3` of `srl` (R74). -/
def Config.f3Srl : BitVec 3 := 0b101#3
/-- `funct3` of `or` (R74). -/
def Config.f3Or : BitVec 3 := 0b110#3
/-- `funct3` of `and` (R74). -/
def Config.f3And : BitVec 3 := 0b111#3
/-- `funct3` of `lw` (R74). -/
def Config.f3Lw : BitVec 3 := 0b010#3
/-- `funct3` of `addi` (R74). -/
def Config.f3Addi : BitVec 3 := 0b000#3
/-- `funct3` of `jalr` (R74). -/
def Config.f3Jalr : BitVec 3 := 0b000#3
/-- `funct3` of `sw` (R74). -/
def Config.f3Sw : BitVec 3 := 0b010#3
/-- `funct3` of `beq` (R74). -/
def Config.f3Beq : BitVec 3 := 0b000#3
/-- `funct3` of `bne` (R74). -/
def Config.f3Bne : BitVec 3 := 0b001#3
/-- `funct3` of `blt` (R74). -/
def Config.f3Blt : BitVec 3 := 0b100#3
/-- `funct3` of `bge` (R74). -/
def Config.f3Bge : BitVec 3 := 0b101#3

/-! ### Fields (R61 to R67) -/

/-- `w[6:0]` (R61). -/
def opcodeOf (w : Word) : BitVec 7 := w.extractLsb' 0 7
/-- `w[14:12]` (R61). -/
def funct3Of (w : Word) : BitVec 3 := w.extractLsb' 12 3
/-- `w[31:25]` (R61). -/
def funct7Of (w : Word) : BitVec 7 := w.extractLsb' 25 7
/-- `w[11:7]` (R61), as the register it names. -/
def rdOf (w : Word) : RegId := (w.extractLsb' 7 5).toFin
/-- `w[19:15]` (R61), as the register it names. -/
def rs1Of (w : Word) : RegId := (w.extractLsb' 15 5).toFin
/-- `w[24:20]` (R61), as the register it names. -/
def rs2Of (w : Word) : RegId := (w.extractLsb' 20 5).toFin
/-- `imm12 = w[31:20]` of the I format (R63, R68). -/
def imm12IOf (w : Word) : BitVec 12 := w.extractLsb' 20 12
/-- `imm12 = w[31:25] ++ w[11:7]` of the S format (R64, R69). -/
def imm12SOf (w : Word) : BitVec 12 := w.extractLsb' 25 7 ++ w.extractLsb' 7 5
/-- `imm13 = w[31] ++ w[7] ++ w[30:25] ++ w[11:8] ++ 0` of the B format (R65, R70). -/
def imm13Of (w : Word) : BitVec 13 :=
  w.extractLsb' 31 1 ++ w.extractLsb' 7 1 ++ w.extractLsb' 25 6 ++ w.extractLsb' 8 4 ++ 0#1
/-- `imm20 = w[31:12]` of the U format (R66, R71). -/
def imm20Of (w : Word) : BitVec 20 := w.extractLsb' 12 20
/-- `imm21 = w[31] ++ w[19:12] ++ w[20] ++ w[30:21] ++ 0` of the J format (R67, R72). -/
def imm21Of (w : Word) : BitVec 21 :=
  w.extractLsb' 31 1 ++ w.extractLsb' 12 8 ++ w.extractLsb' 20 1 ++ w.extractLsb' 21 10 ++ 0#1

/-! ### Decoding (R73 to R79) -/

/-- Why a word is no instruction. It is a no-op all the same (R82); the step runs it as one. -/
inductive DecodeReject where
  /-- A recognised opcode whose function codes select no instruction (R78). -/
  | unmatched
  /-- An opcode that is none of the nine (R79). -/
  | unrecognised
  deriving DecidableEq, Repr

/-- The R unit: `funct7` and `funct3` are both matched (R74, R76). -/
def decodeR (w : Word) : Except DecodeReject Instr :=
  if funct7Of w = Config.f7Sub ∧ funct3Of w = Config.f3AddSub then .ok (.sub (rdOf w) (rs1Of w) (rs2Of w))
  else if funct7Of w ≠ Config.f7Base then .error .unmatched
  else if funct3Of w = Config.f3AddSub then .ok (.add (rdOf w) (rs1Of w) (rs2Of w))
  else if funct3Of w = Config.f3Sll then .ok (.sll (rdOf w) (rs1Of w) (rs2Of w))
  else if funct3Of w = Config.f3Slt then .ok (.slt (rdOf w) (rs1Of w) (rs2Of w))
  else if funct3Of w = Config.f3Sltu then .ok (.sltu (rdOf w) (rs1Of w) (rs2Of w))
  else if funct3Of w = Config.f3Xor then .ok (.xor (rdOf w) (rs1Of w) (rs2Of w))
  else if funct3Of w = Config.f3Srl then .ok (.srl (rdOf w) (rs1Of w) (rs2Of w))
  else if funct3Of w = Config.f3Or then .ok (.or (rdOf w) (rs1Of w) (rs2Of w))
  else if funct3Of w = Config.f3And then .ok (.and (rdOf w) (rs1Of w) (rs2Of w))
  else .error .unmatched

/-- The I unit under `OPC_LOAD` (R74, R76). -/
def decodeLoad (w : Word) : Except DecodeReject Instr :=
  if funct3Of w = Config.f3Lw then .ok (.lw (rdOf w) (rs1Of w) (imm12IOf w)) else .error .unmatched

/-- The I unit under `OPC_OPIMM` (R74, R76). -/
def decodeOpImm (w : Word) : Except DecodeReject Instr :=
  if funct3Of w = Config.f3Addi then .ok (.addi (rdOf w) (rs1Of w) (imm12IOf w)) else .error .unmatched

/-- The I unit under `OPC_JALR` (R74, R76). -/
def decodeJalr (w : Word) : Except DecodeReject Instr :=
  if funct3Of w = Config.f3Jalr then .ok (.jalr (rdOf w) (rs1Of w) (imm12IOf w)) else .error .unmatched

/-- The S unit (R74, R76). -/
def decodeStore (w : Word) : Except DecodeReject Instr :=
  if funct3Of w = Config.f3Sw then .ok (.sw (rs1Of w) (rs2Of w) (imm12SOf w)) else .error .unmatched

/-- The B unit (R74, R76). -/
def decodeBranch (w : Word) : Except DecodeReject Instr :=
  if funct3Of w = Config.f3Beq then .ok (.beq (rs1Of w) (rs2Of w) (imm13Of w))
  else if funct3Of w = Config.f3Bne then .ok (.bne (rs1Of w) (rs2Of w) (imm13Of w))
  else if funct3Of w = Config.f3Blt then .ok (.blt (rs1Of w) (rs2Of w) (imm13Of w))
  else if funct3Of w = Config.f3Bge then .ok (.bge (rs1Of w) (rs2Of w) (imm13Of w))
  else .error .unmatched

/-- The instruction a word stands for, in the order of R75: the sentinel first, then the opcode, then the function
codes. Total on all `2^32` words. -/
def decode (w : Word) : Except DecodeReject Instr :=
  if w = Config.haltWord then .ok .halt
  else if opcodeOf w = Config.opcR then decodeR w
  else if opcodeOf w = Config.opcLoad then decodeLoad w
  else if opcodeOf w = Config.opcOpImm then decodeOpImm w
  else if opcodeOf w = Config.opcJalr then decodeJalr w
  else if opcodeOf w = Config.opcStore then decodeStore w
  else if opcodeOf w = Config.opcBranch then decodeBranch w
  else if opcodeOf w = Config.opcLui then .ok (.lui (rdOf w) (imm20Of w))
  else if opcodeOf w = Config.opcAuipc then .ok (.auipc (rdOf w) (imm20Of w))
  else if opcodeOf w = Config.opcJal then .ok (.jal (rdOf w) (imm21Of w))
  else .error .unrecognised

/-- The instruction the decoder reads from an instruction of `nbits` bits whose value is `w`, the bits above
`nbits` being 0. An instruction has exactly 32 bits (R60), so a value that needs more is none. -/
def decodeTableWord (nbits w : Nat) : Option Instr :=
  if w % 2 ^ nbits < 2 ^ 32 then (decode (BitVec.ofNat 32 (w % 2 ^ nbits))).toOption else none

/-! ### Encoding (R62 to R67) -/

/-- A register's 5-bit identifier (`10_state.md` R21). -/
def regBits (r : RegId) : BitVec 5 := BitVec.ofFin r

/-- The R format (R62). -/
def encodeR (funct7 : BitVec 7) (funct3 : BitVec 3) (rd rs1 rs2 : RegId) : Word :=
  funct7 ++ regBits rs2 ++ regBits rs1 ++ funct3 ++ regBits rd ++ Config.opcR

/-- The I format (R63). -/
def encodeI (opcode : BitVec 7) (funct3 : BitVec 3) (rd rs1 : RegId) (imm12 : BitVec 12) : Word :=
  imm12 ++ regBits rs1 ++ funct3 ++ regBits rd ++ opcode

/-- The S format (R64). -/
def encodeS (funct3 : BitVec 3) (rs1 rs2 : RegId) (imm12 : BitVec 12) : Word :=
  imm12.extractLsb' 5 7 ++ regBits rs2 ++ regBits rs1 ++ funct3 ++ imm12.extractLsb' 0 5 ++ Config.opcStore

/-- The B format (R65); bit 0 of the immediate is not stored. -/
def encodeB (funct3 : BitVec 3) (rs1 rs2 : RegId) (imm13 : BitVec 13) : Word :=
  imm13.extractLsb' 12 1 ++ imm13.extractLsb' 5 6 ++ regBits rs2 ++ regBits rs1 ++ funct3 ++
    imm13.extractLsb' 1 4 ++ imm13.extractLsb' 11 1 ++ Config.opcBranch

/-- The U format (R66). -/
def encodeU (opcode : BitVec 7) (rd : RegId) (imm20 : BitVec 20) : Word :=
  imm20 ++ regBits rd ++ opcode

/-- The J format (R67); bit 0 of the immediate is not stored. -/
def encodeJ (rd : RegId) (imm21 : BitVec 21) : Word :=
  imm21.extractLsb' 20 1 ++ imm21.extractLsb' 1 10 ++ imm21.extractLsb' 11 1 ++ imm21.extractLsb' 12 8 ++
    regBits rd ++ Config.opcJal

/-- The word of an instruction, from the formats and codes of R62 to R74. -/
def encode : Instr → Word
  | .halt => Config.haltWord
  | .add rd rs1 rs2 => encodeR Config.f7Base Config.f3AddSub rd rs1 rs2
  | .sub rd rs1 rs2 => encodeR Config.f7Sub Config.f3AddSub rd rs1 rs2
  | .sll rd rs1 rs2 => encodeR Config.f7Base Config.f3Sll rd rs1 rs2
  | .slt rd rs1 rs2 => encodeR Config.f7Base Config.f3Slt rd rs1 rs2
  | .sltu rd rs1 rs2 => encodeR Config.f7Base Config.f3Sltu rd rs1 rs2
  | .xor rd rs1 rs2 => encodeR Config.f7Base Config.f3Xor rd rs1 rs2
  | .srl rd rs1 rs2 => encodeR Config.f7Base Config.f3Srl rd rs1 rs2
  | .or rd rs1 rs2 => encodeR Config.f7Base Config.f3Or rd rs1 rs2
  | .and rd rs1 rs2 => encodeR Config.f7Base Config.f3And rd rs1 rs2
  | .lw rd rs1 imm12 => encodeI Config.opcLoad Config.f3Lw rd rs1 imm12
  | .addi rd rs1 imm12 => encodeI Config.opcOpImm Config.f3Addi rd rs1 imm12
  | .jalr rd rs1 imm12 => encodeI Config.opcJalr Config.f3Jalr rd rs1 imm12
  | .sw rs1 rs2 imm12 => encodeS Config.f3Sw rs1 rs2 imm12
  | .beq rs1 rs2 imm13 => encodeB Config.f3Beq rs1 rs2 imm13
  | .bne rs1 rs2 imm13 => encodeB Config.f3Bne rs1 rs2 imm13
  | .blt rs1 rs2 imm13 => encodeB Config.f3Blt rs1 rs2 imm13
  | .bge rs1 rs2 imm13 => encodeB Config.f3Bge rs1 rs2 imm13
  | .lui rd imm20 => encodeU Config.opcLui rd imm20
  | .auipc rd imm20 => encodeU Config.opcAuipc rd imm20
  | .jal rd imm21 => encodeJ rd imm21

/-! ### The opcode table (R74, R85), written from its own numbers and not from the decoder's parameters -/

/-- A row of the opcode table: a word `w` is of the row when `w &&& mask = pattern` (R74). -/
structure OpcodeRow where
  mask : Word
  pattern : Word
  deriving DecidableEq, Repr

/-- Whether a word is of a row (R74). -/
def OpcodeRow.holds (r : OpcodeRow) (w : Word) : Bool := w &&& r.mask == r.pattern

/-- The row of `spec/opcode_table.json` an instruction stands for (R74). -/
def Instr.row : Instr → OpcodeRow
  | .halt => ⟨0xFFFFFFFF#32, 0x00000063#32⟩
  | .add _ _ _ => ⟨0xFE00707F#32, 0x00000033#32⟩
  | .sub _ _ _ => ⟨0xFE00707F#32, 0x40000033#32⟩
  | .sll _ _ _ => ⟨0xFE00707F#32, 0x00001033#32⟩
  | .slt _ _ _ => ⟨0xFE00707F#32, 0x00002033#32⟩
  | .sltu _ _ _ => ⟨0xFE00707F#32, 0x00003033#32⟩
  | .xor _ _ _ => ⟨0xFE00707F#32, 0x00004033#32⟩
  | .srl _ _ _ => ⟨0xFE00707F#32, 0x00005033#32⟩
  | .or _ _ _ => ⟨0xFE00707F#32, 0x00006033#32⟩
  | .and _ _ _ => ⟨0xFE00707F#32, 0x00007033#32⟩
  | .lw _ _ _ => ⟨0x0000707F#32, 0x00002003#32⟩
  | .addi _ _ _ => ⟨0x0000707F#32, 0x00000013#32⟩
  | .jalr _ _ _ => ⟨0x0000707F#32, 0x00000067#32⟩
  | .sw _ _ _ => ⟨0x0000707F#32, 0x00002023#32⟩
  | .beq _ _ _ => ⟨0x0000707F#32, 0x00000063#32⟩
  | .bne _ _ _ => ⟨0x0000707F#32, 0x00001063#32⟩
  | .blt _ _ _ => ⟨0x0000707F#32, 0x00004063#32⟩
  | .bge _ _ _ => ⟨0x0000707F#32, 0x00005063#32⟩
  | .lui _ _ => ⟨0x0000007F#32, 0x00000037#32⟩
  | .auipc _ _ => ⟨0x0000007F#32, 0x00000017#32⟩
  | .jal _ _ => ⟨0x0000007F#32, 0x0000006F#32⟩

/-- The rows in file order, the sentinel first (R85). -/
def opcodeTable : List OpcodeRow :=
  [Instr.halt.row] ++
  [(Instr.add 0 0 0).row, (Instr.sub 0 0 0).row, (Instr.sll 0 0 0).row, (Instr.slt 0 0 0).row,
    (Instr.sltu 0 0 0).row, (Instr.xor 0 0 0).row, (Instr.srl 0 0 0).row, (Instr.or 0 0 0).row,
    (Instr.and 0 0 0).row] ++
  [(Instr.lw 0 0 0).row, (Instr.addi 0 0 0).row, (Instr.jalr 0 0 0).row, (Instr.sw 0 0 0).row] ++
  [(Instr.beq 0 0 0).row, (Instr.bne 0 0 0).row, (Instr.blt 0 0 0).row, (Instr.bge 0 0 0).row] ++
  [(Instr.lui 0 0).row, (Instr.auipc 0 0).row, (Instr.jal 0 0).row]

/-- The row of a word: the first in file order that holds of it (R85). -/
def rowOf (w : Word) : Option OpcodeRow := opcodeTable.find? (·.holds w)

end Sys2Proof
end

