-- ==== Sys2Proof/Machine/Ops.lean ====
section
/-! DEFINITION. The named operations over registers, memory and the loop's own state. The hardware takes no
exception and returns from none (`60_exceptions.md` R170, R174, R178), so there is no exception entry here. -/

namespace Sys2Proof.Machine

/-! ### Data memory (`20_memory.md`) -/

/-- `MemRead(a, 4)`: the whole cell at key `a`, zero if nothing is listed there; it changes nothing (R44). -/
def Memory.read : Memory → Nat → Word
  | [], _ => Config.memDefault
  | (b, v) :: m, a => if a = b then v else Memory.read m a

/-- `MemWrite(a, 4, v)`: the cell at key `a` holds `v` and no other cell changes (R45). The list stays in canonical
form: writing what an unlisted key reads as removes the entry. -/
def Memory.write : Memory → Nat → Word → Memory
  | [], a, v => if v = Config.memDefault then [] else [(a, v)]
  | (b, u) :: m, a, v =>
    if a < b then (if v = Config.memDefault then (b, u) :: m else (a, v) :: (b, u) :: m)
    else if a = b then (if v = Config.memDefault then m else (a, v) :: m)
    else (b, u) :: Memory.write m a v

/-- The data memory of a finite map of cells, as a launch supplies it (`00_scope.md` R6 `INIT_MEM`); of two entries
for one key the later stands. -/
def Memory.ofCells (cells : List (Word × Word)) : Memory :=
  cells.foldl (fun m c => Memory.write m (toInteger c.1) c.2) []

/-! ### Writes -/

/-- `x[r] <- v`, stored modulo `2^32`; no register discards it (`10_state.md` R22, R23). -/
def State.writeReg (s : State) (r : RegId) (v : Int) : State :=
  { s with regs := s.regs.set r (toBinary32 v) }

/-- `MemWrite(a, 4, v)` on the machine's memory (`20_memory.md` R45). -/
def State.writeMem (s : State) (a : Nat) (v : Word) : State :=
  { s with mem := s.mem.write a v }

/-! ### The loop's part of a step (`46_step_loop_trace.md` R150) -/

/-- The snapshot the trace recorder takes (R160). -/
def State.snapshot (s : State) : TraceEntry := ⟨s.program, s.regs⟩

/-- Lines 6 and 7: the executor's result becomes the pc, unreduced, and `program` its low 32 bits (R158, R159). -/
def State.setPc (s : State) (npc : Nat) : State :=
  { s with pc := npc, program := toBinary32 npc }

/-- Line 8: one entry is appended, none is changed (R160). -/
def State.record (s : State) : State :=
  { s with trace := s.trace ++ [s.snapshot] }

/-- What the loop does once the executor has written its result and returned `npc`: lines 6 to 8 of R150. -/
def State.retire (s : State) (npc : Nat) : State := (s.setPc npc).record

/-- A halt changes `run` only (R151, R154, `60_exceptions.md` R174). -/
def State.halt (s : State) : State := { s with run := .halted }

/-- A word that is no instruction is a no-op, whichever way it fails to be one, and an executed step all the same
(`30_encoding.md` R78, R79; R157). -/
def State.noop (s : State) (_why : DecodeReject) (_w : Word) : State := s.retire s.nextPc

/-- A data access at `ea` that ends in `t`: an address of `2^32` or more has no key and faults, and then nothing is
written (`20_memory.md` R48, `60_exceptions.md` R176, R177). -/
def accessAt (ea : Nat) (t : State) : Result :=
  if ea < Config.addrBound then .next t else .fault (.addressOverflow ea)

/-! ### The instruction table (`20_memory.md` R51 to R53) -/

/-- `LAST_PC`, the key of the window's last word (`00_scope.md` R6). -/
def State.lastPc (s : State) : Nat := 4 * (s.instrTable.length - 1)

/-- `Fetch(a)`: the word `IT[a]` when `a` is a key, a multiple of 4 inside the window; none when it is not (R52,
R53). -/
def fetchWord (it : List Word) (a : Nat) : Option Word :=
  if a % 4 = 0 then it[a / 4]? else none

/-- The table with `w` at key `a`, a multiple of 4, lengthened by zero words where it does not reach (DESIGN CHOICE
for the padding, log entry 13). -/
def placeWord (it : List Word) (a : Nat) (w : Word) : List Word :=
  (it ++ List.replicate (a / 4 + 1 - it.length) 0#32).set (a / 4) w

/-! ### The launch (`70_reset_and_hazards.md` R190, R193) -/

/-- A run's first state: the host supplies the registers, the data memory, the initial `program` value and the
instruction table; the rest is fixed (`10_state.md` R35). -/
def State.launch (initX : Vector Word 32) (initMem : List (Word × Word)) (program : Word) (it : List Word) : State where
  regs := initX
  pc := 0
  program := program
  run := .running
  mem := Memory.ofCells initMem
  trace := []
  instrTable := it

end Sys2Proof.Machine
end

