-- ==== Sys2Proof/Machine/BType.lean ====
section
/-! DEFINITION. The B family (`43_b_type.md`). -/

namespace Sys2Proof.Machine

/-- What the four have in common: `pc + immB` if the condition holds of the two registers, else `pc + 4`; nothing
else is written (R129). -/
def execBranch (cond : Nat → Nat → Bool) (rs1 rs2 : RegId) (imm13 : BitVec 13) (s : State) : Result :=
  .next (s.retire (if cond (s.readReg rs1) (s.readReg rs2) then s.pcOffset imm13 else s.nextPc))

/-- R125. -/
def execBeq (rs1 rs2 : RegId) (imm13 : BitVec 13) (s : State) : Result := execBranch condEq rs1 rs2 imm13 s

/-- R126. -/
def execBne (rs1 rs2 : RegId) (imm13 : BitVec 13) (s : State) : Result := execBranch condNe rs1 rs2 imm13 s

/-- R127. -/
def execBlt (rs1 rs2 : RegId) (imm13 : BitVec 13) (s : State) : Result := execBranch condLt rs1 rs2 imm13 s

/-- R128. -/
def execBge (rs1 rs2 : RegId) (imm13 : BitVec 13) (s : State) : Result := execBranch condGe rs1 rs2 imm13 s

end Sys2Proof.Machine
end

