-- ==== Sys2Proof/Machine/Halt.lean ====
section
/-! DEFINITION. The halt sentinel (`46_step_loop_trace.md`). -/

namespace Sys2Proof.Machine

/-- R154: the run halts; no register is read, the pc stays, no trace entry is made. -/
def execHalt (s : State) : Result := .next s.halt

end Sys2Proof.Machine
end

