-- ==== Sys2Proof/Machine/IType.lean ====
section
/-! DEFINITION. The I family (`41_i_type.md`). -/

namespace Sys2Proof.Machine

/-- R110: the whole cell at the effective address, or `AddressOverflow`. -/
def execLw (rd rs1 : RegId) (imm12 : BitVec 12) (s : State) : Result :=
  let ea := s.baseOffset rs1 imm12
  accessAt ea ((s.writeReg rd (toInteger (s.mem.read ea))).retire s.nextPc)

/-- R111. -/
def execAddi (rd rs1 : RegId) (imm12 : BitVec 12) (s : State) : Result :=
  .next ((s.writeReg rd (s.baseOffset rs1 imm12)).retire s.nextPc)

/-- R112: the target is formed from the old `x[rs1]`, and is neither masked nor reduced. -/
def execJalr (rd rs1 : RegId) (imm12 : BitVec 12) (s : State) : Result :=
  .next ((s.writeReg rd s.nextPc).retire (s.baseOffset rs1 imm12))

end Sys2Proof.Machine
end

