-- ==== Sys2Proof/Machine/JType.lean ====
section
/-! DEFINITION. The J family (`45_j_type.md`). -/

namespace Sys2Proof.Machine

/-- R140: link and jump, both from the `jal`'s own pc. -/
def execJal (rd : RegId) (imm21 : BitVec 21) (s : State) : Result :=
  .next ((s.writeReg rd s.nextPc).retire (s.pcOffset imm21))

end Sys2Proof.Machine
end

