-- ==== Sys2Proof/Machine/RType.lean ====
section
/-! DEFINITION. The R family (`40_r_type.md`). -/

namespace Sys2Proof.Machine

/-- What the nine have in common: both sources are read as unsigned integers before `rd` is written, the result is
stored modulo `2^32`, and the pc advances by 4 (R99, `70_reset_and_hazards.md` R197). -/
def execR (op : Nat → Nat → Int) (rd rs1 rs2 : RegId) (s : State) : Result :=
  .next ((s.writeReg rd (op (s.readReg rs1) (s.readReg rs2))).retire s.nextPc)

/-- The shift amount, the low 5 bits of `x[rs2]` for both shifts (R92, R96, R103). -/
def shiftAmount (b : Nat) : Nat := b % 32

/-- R90. -/
def execAdd (rd rs1 rs2 : RegId) (s : State) : Result := execR (fun a b => a + b) rd rs1 rs2 s

/-- R91: the integer difference, which may be negative. -/
def execSub (rd rs1 rs2 : RegId) (s : State) : Result := execR (fun a b => a - b) rd rs1 rs2 s

/-- R92. -/
def execSll (rd rs1 rs2 : RegId) (s : State) : Result :=
  execR (fun a b => (a * 2 ^ shiftAmount b : Nat)) rd rs1 rs2 s

/-- R93: unsigned, despite the name. -/
def execSlt (rd rs1 rs2 : RegId) (s : State) : Result :=
  execR (fun a b => if condLt a b then 1 else 0) rd rs1 rs2 s

/-- R94: the same logic. -/
def execSltu (rd rs1 rs2 : RegId) (s : State) : Result :=
  execR (fun a b => if condLt a b then 1 else 0) rd rs1 rs2 s

/-- R95. -/
def execXor (rd rs1 rs2 : RegId) (s : State) : Result := execR (fun a b => (a ^^^ b : Nat)) rd rs1 rs2 s

/-- R96: logical. -/
def execSrl (rd rs1 rs2 : RegId) (s : State) : Result :=
  execR (fun a b => (a / 2 ^ shiftAmount b : Nat)) rd rs1 rs2 s

/-- R97. -/
def execOr (rd rs1 rs2 : RegId) (s : State) : Result := execR (fun a b => (a ||| b : Nat)) rd rs1 rs2 s

/-- R98. -/
def execAnd (rd rs1 rs2 : RegId) (s : State) : Result := execR (fun a b => (a &&& b : Nat)) rd rs1 rs2 s

end Sys2Proof.Machine
end

