-- ==== Sys2Proof/Machine/SType.lean ====
section
/-! DEFINITION. The S family (`42_s_type.md`). -/

namespace Sys2Proof.Machine

/-- R120: the whole register into the cell at the effective address, or `AddressOverflow`. -/
def execSw (rs1 rs2 : RegId) (imm12 : BitVec 12) (s : State) : Result :=
  let ea := s.baseOffset rs1 imm12
  accessAt ea ((s.writeMem ea (s.reg rs2)).retire s.nextPc)

end Sys2Proof.Machine
end

