-- ==== Sys2Proof/Machine/UType.lean ====
section
/-! DEFINITION. The U family (`44_u_type.md`). -/

namespace Sys2Proof.Machine

/-- The one effect of both: the extended field, neither shifted nor added to the pc (R135, R136). -/
def loadUpper (rd : RegId) (imm20 : BitVec 20) (s : State) : Result :=
  .next ((s.writeReg rd (extendImm imm20)).retire s.nextPc)

/-- R135. -/
def execLui (rd : RegId) (imm20 : BitVec 20) (s : State) : Result := loadUpper rd imm20 s

/-- R136: "both opcodes treated identically". -/
def execAuipc (rd : RegId) (imm20 : BitVec 20) (s : State) : Result := loadUpper rd imm20 s

end Sys2Proof.Machine
end

