-- ==== Sys2Proof/Machine/Loop.lean ====
section
/-! DEFINITION. One pass of the fetch-decode-execute loop (`46_step_loop_trace.md` R150 to R155). -/

namespace Sys2Proof.Machine

/-- Lines 4 to 8 for a fetched word: the sentinel test and the dispatch are the decoder's (`30_encoding.md` R75), and
a word that is no instruction runs as a no-op (R78, R79). -/
def runWord (dispatch : Instr → State → Result) (w : Word) (s : State) : Result :=
  match decode w with
  | .ok i => dispatch i s
  | .error why => .next (s.noop why w)

/-- Lines 1 to 3, in the order of R153: the bound check, the fetch, then the word. -/
def runAtPc (dispatch : Instr → State → Result) (s : State) : Result :=
  if s.lastPc < s.pc then .next s.halt
  else match fetchWord s.instrTable s.pc with
    | none => .fault (.fetchUnmapped s.pc)
    | some w => runWord dispatch w s

/-- A pass of the loop. From HALTED nothing changes (`10_state.md` R29, `95_test_vectors.md` part 2; DEDUCED, log
entry 4). Without an instruction table there is no machine to run (log entry 3). -/
def loopPass (dispatch : Instr → State → Result) (s : State) : Result :=
  match s.run with
  | .halted => .next s
  | .running => if s.instrTable.isEmpty then .refused .noInstructionTable else runAtPc dispatch s

end Sys2Proof.Machine
end

