-- ==== Sys2Proof/Machine/Step.lean ====
section
/-! DEFINITION. The step (`46_step_loop_trace.md` R150) and the load of one word where it fetches. -/

namespace Sys2Proof.Machine

/-- One step: one pass of the loop (R150, `92_eei_decisions.md` D17). -/
def step (s : State) : Host.Outcome State Fault Refusal := loopPass exec s

/-- The key the next fetch can use: the pc when it is one, else 0 (log entry 13). -/
def State.fetchKey (s : State) : Nat := if s.pc % 4 = 0 ∧ s.pc < Config.addrBound then s.pc else 0

/-- `s` RUNNING, with the instruction of `nbits` bits whose value is `w` in the instruction table where the next step
fetches, so that the step runs it. It stands for the launch of a program that holds the word there (log entries 3
and 13). -/
def State.withFetchWord (s : State) (nbits w : Nat) : State :=
  { s with
    run := .running
    pc := s.fetchKey
    instrTable := placeWord s.instrTable s.fetchKey (BitVec.ofNat 32 (w % 2 ^ nbits)) }

end Sys2Proof.Machine
end

