-- ==== Sys2Proof/Machine/Trace.lean ====
section
/-! DEFINITION. The text forms: the serialisation of a trace entry (`46_step_loop_trace.md` R161) and the address
string (`00_scope.md` R17). The state keeps numbers; these are what an observer reads. A string is given as its list
of characters, and as a `String` made of it. -/

namespace Sys2Proof.Machine

/-- One binary digit. -/
def binDigit (b : Bool) : Char := if b then '1' else '0'

/-- A value of `n` bits as exactly `n` binary digits, most significant first: `bits32` for a word, `id5` for a
register identifier (R161). -/
def binDigits {n : Nat} (b : BitVec n) : List Char := (List.range n).map (fun d => binDigit (b.getMsbD d))

/-- `reg(i)`, the token of a register: its identifier, a colon, its value (R161). -/
def regToken (r : RegId) (v : Word) : List Char := binDigits (regBits r) ++ ':' :: binDigits v

/-- The token of the `program` slot, which uses `=` and stands first (R161). -/
def programToken (v : Word) : List Char := ['p', 'r', 'o', 'g', 'r', 'a', 'm', '='] ++ binDigits v

/-- The characters of an entry's line: 33 tokens joined by single spaces, no terminator (R161). -/
def TraceEntry.lineChars (e : TraceEntry) : List Char :=
  programToken e.program ++ (List.finRange 32).flatMap (fun r => ' ' :: regToken r e.regs[r])

/-- An entry as the string the trace holds (`10_state.md` R30, R161). -/
def TraceEntry.line (e : TraceEntry) : String := String.ofList e.lineChars

/-- The hexadecimal digits in order of value, the letters in lower case (`00_scope.md` R17). -/
def hexDigits : List Char :=
  ['0', '1', '2', '3', '4', '5', '6', '7', '8', '9', 'a', 'b', 'c', 'd', 'e', 'f']

/-- One digit. -/
def hexDigit (d : BitVec 4) : Char := hexDigits.getD d.toNat '0'

/-- `hex8`: an address as exactly 8 lower-case hexadecimal digits, leading zeros kept (`00_scope.md` R17). The data
memory is keyed by the number itself, as R17 allows. -/
def hex8 (a : Word) : List Char := (List.range 8).map (fun d => hexDigit (a.extractLsb' (28 - 4 * d) 4))

/-- The whole output of a run: the lines in execution order (R160, R162). -/
def State.traceLines (s : State) : List String := s.trace.map TraceEntry.line

end Sys2Proof.Machine
end

