-- ==== Sys2Proof/Safety.lean ====
section
/-! DEFINITION. The terms claims use: what a step leaves alone, what every reachable state keeps, the events that end
a step, and what counts as a safe run. -/

namespace Sys2Proof.Machine

/-! ### Frames -/

/-- Every register holds in `t` what it holds in `s`. -/
def SameRegs (s t : State) : Prop := ∀ r : RegId, t.reg r = s.reg r

/-- Every data-memory cell reads in `t` as in `s`. -/
def SameMem (s t : State) : Prop := ∀ a : Nat, t.mem.read a = s.mem.read a

/-- Register `rd` holds the number `v` in `t`, and every other register holds what it holds in `s`.  There is no
register that discards a write (`10_state.md` R22), so `rd` may be any of the 32. -/
structure WritesOnlyReg (s t : State) (rd : RegId) (v : Nat) : Prop where
  written : (t.reg rd).toNat = v
  others : ∀ r : RegId, r ≠ rd → t.reg r = s.reg r

/-- The cell at key `a` reads as `v` in `t`, and every other cell reads as in `s` (`20_memory.md` R41, R45). -/
structure WritesOnlyCell (s t : State) (a : Nat) (v : Word) : Prop where
  written : t.mem.read a = v
  others : ∀ b : Nat, b ≠ a → t.mem.read b = s.mem.read b

/-- `t` ends an executed step from `s` whose next pc is `npc`: the pc is `npc` unreduced, `program` its low 32 bits,
one trace entry is appended that shows `program` and the registers of `t`, and the run state and the instruction
table are as before (`46_step_loop_trace.md` R150, R158 to R160). -/
structure Executed (s t : State) (npc : Nat) : Prop where
  pc : t.pc = npc
  program : t.program.toNat = npc % 2 ^ 32
  trace : t.trace = s.trace ++ [⟨t.program, t.regs⟩]
  run : t.run = s.run
  table : t.instrTable = s.instrTable

/-! ### The invariant of reachable states -/

/-- The trace and the machine agree: before the first executed step the pc is 0; after it the newest entry shows the
registers and the `program` slot as they stand, and `program` is the pc's low 32 bits (`10_state.md` R27,
`46_step_loop_trace.md` R159, R160, R162). -/
def State.traceAgrees (s : State) : Prop :=
  match s.trace.getLast? with
  | none => s.pc = 0
  | some e => e = ⟨s.program, s.regs⟩ ∧ s.program.toNat = s.pc % 2 ^ 32

/-- What every reachable state keeps. -/
structure State.Inv (s : State) : Prop where
  /-- The data memory is in canonical form, every key below `2^32` (`20_memory.md` R40). -/
  mem_wf : s.mem.wf
  /-- The pc is below `2^33` (`10_state.md` R26). -/
  pc_bound : s.pc < 2 ^ 33
  /-- `LAST_PC < 2^32` (`00_scope.md` R7). -/
  table_bound : s.lastPc < 2 ^ 32
  /-- The newest trace entry shows the machine as it is. -/
  trace_agrees : s.traceAgrees

/-! ### The events that end a step (`60_exceptions.md` R171) -/

/-- The four events, under the spec's own names. -/
inductive StopEvent where
  | haltBound
  | haltSentinel
  | fetchUnmapped (pc : Nat)
  | addressOverflow (ea : Nat)
  deriving DecidableEq, Repr

/-- The effective address of the one data access an instruction makes: `lw` and `sw` make one, no other does
(`00_scope.md` R8, `20_memory.md` R48). -/
def dataAddress (i : Instr) (s : State) : Option Nat :=
  match i with
  | .lw _ rs1 imm12 => some (s.baseOffset rs1 imm12)
  | .sw rs1 _ imm12 => some (s.baseOffset rs1 imm12)
  | .halt => none
  | .add _ _ _ => none
  | .sub _ _ _ => none
  | .sll _ _ _ => none
  | .slt _ _ _ => none
  | .sltu _ _ _ => none
  | .xor _ _ _ => none
  | .srl _ _ _ => none
  | .or _ _ _ => none
  | .and _ _ _ => none
  | .addi _ _ _ => none
  | .jalr _ _ _ => none
  | .beq _ _ _ => none
  | .bne _ _ _ => none
  | .blt _ _ _ => none
  | .bge _ _ _ => none
  | .lui _ _ => none
  | .auipc _ _ => none
  | .jal _ _ => none

/-- The event a fetched word raises, if it raises one. -/
def wordEvent (w : Word) (s : State) : Option StopEvent :=
  if w = Config.haltWord then some .haltSentinel
  else match decode w with
    | .error _ => none
    | .ok i => match dataAddress i s with
      | some ea => if 2 ^ 32 ≤ ea then some (.addressOverflow ea) else none
      | none => none

/-- The event that ends the next step of a RUNNING machine, in the fixed order of R173: bound, fetch, sentinel, and
last what the executor raises. -/
def State.stopEvent (s : State) : Option StopEvent :=
  if s.lastPc < s.pc then some .haltBound
  else match fetchWord s.instrTable s.pc with
    | none => some (.fetchUnmapped s.pc)
    | some w => wordEvent w s

/-! ### Runs -/

/-- A run that reaches no fault, which a claim about a program has to show of it (`60_exceptions.md` R177). -/
def FaultFree (s : State) : Prop := ∀ (k : Nat) (f : Fault), core.run k s ≠ .fault f

/-- An instruction that raises no fault itself and sends an aligned pc to no misaligned one: no data access, no
`jalr`, and only branch and jump offsets that are multiples of 4 (the duties of `70_reset_and_hazards.md` R194 that
keep a program from the two faults, in a form that can be read off the instruction). -/
def neverFaults : Instr → Bool
  | .halt => true
  | .add _ _ _ => true
  | .sub _ _ _ => true
  | .sll _ _ _ => true
  | .slt _ _ _ => true
  | .sltu _ _ _ => true
  | .xor _ _ _ => true
  | .srl _ _ _ => true
  | .or _ _ _ => true
  | .and _ _ _ => true
  | .lw _ _ _ => false
  | .addi _ _ _ => true
  | .jalr _ _ _ => false
  | .sw _ _ _ => false
  | .beq _ _ imm13 => extendImm imm13 % 4 == 0
  | .bne _ _ imm13 => extendImm imm13 % 4 == 0
  | .blt _ _ imm13 => extendImm imm13 % 4 == 0
  | .bge _ _ imm13 => extendImm imm13 % 4 == 0
  | .lui _ _ => true
  | .auipc _ _ => true
  | .jal _ imm21 => extendImm imm21 % 4 == 0

/-- The pc is aligned and no instruction of the table can fault or misalign it (`70_reset_and_hazards.md` R194). -/
structure State.SafeTable (s : State) : Prop where
  pc_aligned : s.pc % 4 = 0
  table_safe : ∀ w ∈ s.instrTable, ∀ i : Instr, decode w = .ok i → neverFaults i = true

end Sys2Proof.Machine
end

