-- ==== Sys2Proof/Certificates/Slice0/Obligations.lean ====
section
/-! DEFINITION. The statements for the provers.  In a docstring, R<n> is the numbered rule of `spec/` a statement
formalises or rests on. -/

open Sys2Proof Sys2Proof.Machine

/-! ### The primitives of the register file -/

/-- R12: `to_integer(to_binary32(n)) = n mod 2^32` for every integer, and `to_binary32(to_integer(b)) = b` for every
32-bit `b`. -/
def Obligations.BinaryIntegerRoundTrip : Prop :=
  (∀ n : Int, ((toInteger (toBinary32 n) : Nat) : Int) = n % 2 ^ 32) ∧
  (∀ b : Word, toBinary32 (toInteger b) = b)

/-- R13: with a clear top bit the field stays in the low bits under prepended zeros; with a set top bit it moves to
the high bits over appended ones. -/
def Obligations.QuirkExtensionBits : Prop :=
  ∀ (n : Nat) (b : BitVec n), 1 ≤ n → n ≤ 32 →
    (b.getLsbD (n - 1) = false →
      ∀ i : Nat, i < 32 → (qext32 b).getLsbD i = (decide (i < n) && b.getLsbD i)) ∧
    (b.getLsbD (n - 1) = true →
      ∀ i : Nat, i < 32 → (qext32 b).getLsbD i = (decide (i < 32 - n) || b.getLsbD (i - (32 - n))))

/-- R14: the extension is the identity at 32 bits, hence idempotent. -/
def Obligations.QuirkExtensionIdempotent : Prop :=
  (∀ b : Word, qext32 b = b) ∧ (∀ (n : Nat) (b : BitVec n), n ≤ 32 → qext32 (qext32 b) = qext32 b)

/-- From R15: the extension's value as a number, its lower bound when the top bit is set, and that below 32 bits it
is then two's-complement sign extension on the all-ones field only. -/
def Obligations.QuirkExtensionNumber : Prop :=
  ∀ (n : Nat) (b : BitVec n), 1 ≤ n → n ≤ 32 →
    (b.toNat < 2 ^ (n - 1) → (qext32 b).toNat = b.toNat) ∧
    (2 ^ (n - 1) ≤ b.toNat →
      (qext32 b).toNat = b.toNat * 2 ^ (32 - n) + (2 ^ (32 - n) - 1) ∧ 2 ^ 31 ≤ (qext32 b).toNat ∧
      (n < 32 → (qext32 b = b.signExtend 32 ↔ b = BitVec.allOnes n)))

/-! ### The R family: `x[rd]` gets the result, no other register and no cell changes, the step goes to `pc + 4` -/

/-- R90. -/
def Obligations.AddResult : Prop :=
  ∀ (rd rs1 rs2 : RegId) (s : State), ∃ t : State, exec (.add rd rs1 rs2) s = .next t ∧
    Executed s t (s.pc + 4) ∧ SameMem s t ∧
    WritesOnlyReg s t rd (((s.reg rs1).toNat + (s.reg rs2).toNat) % 2 ^ 32)

/-- R91: a negative difference wraps. -/
def Obligations.SubResult : Prop :=
  ∀ (rd rs1 rs2 : RegId) (s : State), ∃ t : State, exec (.sub rd rs1 rs2) s = .next t ∧
    Executed s t (s.pc + 4) ∧ SameMem s t ∧
    WritesOnlyReg s t rd
      (if (s.reg rs2).toNat ≤ (s.reg rs1).toNat then (s.reg rs1).toNat - (s.reg rs2).toNat
       else 2 ^ 32 + (s.reg rs1).toNat - (s.reg rs2).toNat)

/-- R92: only the low 5 bits of `x[rs2]` count. -/
def Obligations.SllResult : Prop :=
  ∀ (rd rs1 rs2 : RegId) (s : State), ∃ t : State, exec (.sll rd rs1 rs2) s = .next t ∧
    Executed s t (s.pc + 4) ∧ SameMem s t ∧
    WritesOnlyReg s t rd (s.reg rs1 <<< ((s.reg rs2).extractLsb' 0 5).toNat).toNat

/-- R93: an unsigned comparison. -/
def Obligations.SltResult : Prop :=
  ∀ (rd rs1 rs2 : RegId) (s : State), ∃ t : State, exec (.slt rd rs1 rs2) s = .next t ∧
    Executed s t (s.pc + 4) ∧ SameMem s t ∧
    WritesOnlyReg s t rd (if (s.reg rs1).ult (s.reg rs2) then 1 else 0)

/-- R94: identical in effect to `slt`. -/
def Obligations.SltuResult : Prop :=
  ∀ (rd rs1 rs2 : RegId) (s : State), ∃ t : State, exec (.sltu rd rs1 rs2) s = .next t ∧
    Executed s t (s.pc + 4) ∧ SameMem s t ∧
    WritesOnlyReg s t rd (if (s.reg rs1).ult (s.reg rs2) then 1 else 0)

/-- R95. -/
def Obligations.XorResult : Prop :=
  ∀ (rd rs1 rs2 : RegId) (s : State), ∃ t : State, exec (.xor rd rs1 rs2) s = .next t ∧
    Executed s t (s.pc + 4) ∧ SameMem s t ∧ WritesOnlyReg s t rd (s.reg rs1 ^^^ s.reg rs2).toNat

/-- From R96: logical.  That only the low 5 bits of `x[rs2]` count is the spec's own decision, D11 (log entry 10). -/
def Obligations.SrlResult : Prop :=
  ∀ (rd rs1 rs2 : RegId) (s : State), ∃ t : State, exec (.srl rd rs1 rs2) s = .next t ∧
    Executed s t (s.pc + 4) ∧ SameMem s t ∧
    WritesOnlyReg s t rd (s.reg rs1 >>> ((s.reg rs2).extractLsb' 0 5).toNat).toNat

/-- R97. -/
def Obligations.OrResult : Prop :=
  ∀ (rd rs1 rs2 : RegId) (s : State), ∃ t : State, exec (.or rd rs1 rs2) s = .next t ∧
    Executed s t (s.pc + 4) ∧ SameMem s t ∧ WritesOnlyReg s t rd (s.reg rs1 ||| s.reg rs2).toNat

/-- R98. -/
def Obligations.AndResult : Prop :=
  ∀ (rd rs1 rs2 : RegId) (s : State), ∃ t : State, exec (.and rd rs1 rs2) s = .next t ∧
    Executed s t (s.pc + 4) ∧ SameMem s t ∧ WritesOnlyReg s t rd (s.reg rs1 &&& s.reg rs2).toNat

/-! ### The I and S families -/

/-- From R110: below `2^32` the effective address is a key and its whole cell is loaded.  That it is the fault
`AddressOverflow` otherwise is the spec's own decision, D10 (log entry 8). -/
def Obligations.LoadWordResult : Prop :=
  ∀ (rd rs1 : RegId) (imm12 : BitVec 12) (s : State),
    ((s.reg rs1).toNat + (qext32 imm12).toNat < 2 ^ 32 →
      ∃ t : State, exec (.lw rd rs1 imm12) s = .next t ∧ Executed s t (s.pc + 4) ∧ SameMem s t ∧
        WritesOnlyReg s t rd (s.mem.read ((s.reg rs1).toNat + (qext32 imm12).toNat)).toNat) ∧
    (2 ^ 32 ≤ (s.reg rs1).toNat + (qext32 imm12).toNat →
      exec (.lw rd rs1 imm12) s = .fault (.addressOverflow ((s.reg rs1).toNat + (qext32 imm12).toNat)))

/-- R111. -/
def Obligations.AddImmediateResult : Prop :=
  ∀ (rd rs1 : RegId) (imm12 : BitVec 12) (s : State), ∃ t : State, exec (.addi rd rs1 imm12) s = .next t ∧
    Executed s t (s.pc + 4) ∧ SameMem s t ∧
    WritesOnlyReg s t rd (((s.reg rs1).toNat + (qext32 imm12).toNat) % 2 ^ 32)

/-- From R112: the target is kept whole and `rd` gets the link.  That the target comes from the old `x[rs1]` when
`rd = rs1` is the spec's own decision, D12 (log entry 10), and that it is unreduced its decision D8. -/
def Obligations.JumpAndLinkRegisterResult : Prop :=
  ∀ (rd rs1 : RegId) (imm12 : BitVec 12) (s : State), ∃ t : State, exec (.jalr rd rs1 imm12) s = .next t ∧
    Executed s t ((s.reg rs1).toNat + (qext32 imm12).toNat) ∧ SameMem s t ∧
    WritesOnlyReg s t rd ((s.pc + 4) % 2 ^ 32)

/-- From R120: below `2^32` the cell at the effective address gets the whole of `x[rs2]` and every other cell keeps its
value.  That it is the fault `AddressOverflow` otherwise is the spec's own decision, D10 (log entry 8).  The premise on
the memory is the model's canonical form (`StepKeepsInvariant`). -/
def Obligations.StoreWordResult : Prop :=
  ∀ (rs1 rs2 : RegId) (imm12 : BitVec 12) (s : State), s.mem.wf →
    ((s.reg rs1).toNat + (qext32 imm12).toNat < 2 ^ 32 →
      ∃ t : State, exec (.sw rs1 rs2 imm12) s = .next t ∧ Executed s t (s.pc + 4) ∧ SameRegs s t ∧
        WritesOnlyCell s t ((s.reg rs1).toNat + (qext32 imm12).toNat) (s.reg rs2)) ∧
    (2 ^ 32 ≤ (s.reg rs1).toNat + (qext32 imm12).toNat →
      exec (.sw rs1 rs2 imm12) s = .fault (.addressOverflow ((s.reg rs1).toNat + (qext32 imm12).toNat)))

/-! ### The B, U and J families -/

/-- From R125.  That the taken target extends all 13 digits is the spec's
own decision, D21 (log entry 10), and that it is unreduced its decision D8. -/
def Obligations.BranchEqualResult : Prop :=
  ∀ (rs1 rs2 : RegId) (imm13 : BitVec 13) (s : State), ∃ t : State, exec (.beq rs1 rs2 imm13) s = .next t ∧
    Executed s t (if s.reg rs1 = s.reg rs2 then s.pc + (qext32 imm13).toNat else s.pc + 4) ∧
    SameRegs s t ∧ SameMem s t

/-- From R126.  That the taken target extends all 13 digits is the spec's
own decision, D21 (log entry 10), and that it is unreduced its decision D8. -/
def Obligations.BranchNotEqualResult : Prop :=
  ∀ (rs1 rs2 : RegId) (imm13 : BitVec 13) (s : State), ∃ t : State, exec (.bne rs1 rs2 imm13) s = .next t ∧
    Executed s t (if s.reg rs1 ≠ s.reg rs2 then s.pc + (qext32 imm13).toNat else s.pc + 4) ∧
    SameRegs s t ∧ SameMem s t

/-- From R127: an unsigned comparison.  That the taken target extends all 13 digits is the spec's
own decision, D21 (log entry 10), and that it is unreduced its decision D8. -/
def Obligations.BranchLessResult : Prop :=
  ∀ (rs1 rs2 : RegId) (imm13 : BitVec 13) (s : State), ∃ t : State, exec (.blt rs1 rs2 imm13) s = .next t ∧
    Executed s t (if (s.reg rs1).ult (s.reg rs2) then s.pc + (qext32 imm13).toNat else s.pc + 4) ∧
    SameRegs s t ∧ SameMem s t

/-- From R128: an unsigned comparison.  That the taken target extends all 13 digits is the spec's
own decision, D21 (log entry 10), and that it is unreduced its decision D8. -/
def Obligations.BranchGreaterEqualResult : Prop :=
  ∀ (rs1 rs2 : RegId) (imm13 : BitVec 13) (s : State), ∃ t : State, exec (.bge rs1 rs2 imm13) s = .next t ∧
    Executed s t (if (s.reg rs2).ule (s.reg rs1) then s.pc + (qext32 imm13).toNat else s.pc + 4) ∧
    SameRegs s t ∧ SameMem s t

/-- From R135: the field in the high 20 bits over twelve ones when its top bit is set.  That it is unshifted when the
top bit is clear is the spec's own resolution, C3 of `90_conflicts.md` (U15, log entry 10). -/
def Obligations.LoadUpperResult : Prop :=
  ∀ (rd : RegId) (imm20 : BitVec 20) (s : State), ∃ t : State, exec (.lui rd imm20) s = .next t ∧
    Executed s t (s.pc + 4) ∧ SameMem s t ∧
    WritesOnlyReg s t rd (if imm20.toNat < 2 ^ 19 then imm20.toNat else imm20.toNat * 2 ^ 12 + 0xFFF)

/-- From R136: exactly the effect of `lui`; the pc is not added.  That a field with its top bit clear is unshifted is
the spec's own resolution, C3 of `90_conflicts.md` (U15, log entry 10). -/
def Obligations.AddUpperPcResult : Prop :=
  ∀ (rd : RegId) (imm20 : BitVec 20) (s : State), ∃ t : State, exec (.auipc rd imm20) s = .next t ∧
    Executed s t (s.pc + 4) ∧ SameMem s t ∧
    WritesOnlyReg s t rd (if imm20.toNat < 2 ^ 19 then imm20.toNat else imm20.toNat * 2 ^ 12 + 0xFFF)

/-- From R140: link and target both from the `jal`'s own pc.  That the target extends all 21 digits is the spec's own
decision, D21 (log entry 10), and that it is unreduced its decision D8. -/
def Obligations.JumpAndLinkResult : Prop :=
  ∀ (rd : RegId) (imm21 : BitVec 21) (s : State), ∃ t : State, exec (.jal rd imm21) s = .next t ∧
    Executed s t (s.pc + (qext32 imm21).toNat) ∧ SameMem s t ∧ WritesOnlyReg s t rd ((s.pc + 4) % 2 ^ 32)

/-! ### The loop -/

/-- R154: the sentinel halts the run and changes nothing else, as an instruction and as the fetched `HALT_WORD`. -/
def Obligations.SentinelHalts : Prop :=
  (∀ s : State, exec .halt s = .next { s with run := .halted }) ∧
  (∀ s : State, s.run = .running → fetchWord s.instrTable s.pc = some Config.haltWord →
    step s = .next { s with run := .halted })

/-- From R150, R152, R155: a step of a RUNNING machine whose fetched word decodes to `i` is `exec i`.  The model's
`exec` holds the loop's lines 6 to 8 as well (log entry 12), so nothing stands around it. -/
def Obligations.StepRunsDecodedInstruction : Prop :=
  ∀ (s : State) (w : Word) (i : Instr), s.run = .running → fetchWord s.instrTable s.pc = some w →
    decode w = .ok i → step s = exec i s

/-- From R78: a recognised opcode whose function codes are in no row of the table is a no-op that is an executed step.
That the pc always advances by 4 is the spec's own decision, D4 (log entry 10), and the table's numbers are its defaults
D1, D2 and D5 (PRESUMED, log entry 1). -/
def Obligations.UnmatchedWordIsNoop : Prop :=
  ∀ (s : State) (w : Word), s.run = .running → fetchWord s.instrTable s.pc = some w →
    w.extractLsb' 0 7 ∈ [Config.opcR, Config.opcLoad, Config.opcOpImm, Config.opcJalr, Config.opcStore,
      Config.opcBranch] →
    (∀ r ∈ opcodeTable, w &&& r.mask ≠ r.pattern) →
    ∃ t : State, step s = .next t ∧ Executed s t (s.pc + 4) ∧ SameRegs s t ∧ SameMem s t

/-- R79: a word whose opcode is none of the nine is a no-op that is an executed step. -/
def Obligations.UnrecognisedOpcodeIsNoop : Prop :=
  ∀ (s : State) (w : Word), s.run = .running → fetchWord s.instrTable s.pc = some w →
    w.extractLsb' 0 7 ∉ [Config.opcR, Config.opcLoad, Config.opcOpImm, Config.opcJalr, Config.opcStore,
      Config.opcBranch, Config.opcLui, Config.opcAuipc, Config.opcJal] →
    ∃ t : State, step s = .next t ∧ Executed s t (s.pc + 4) ∧ SameRegs s t ∧ SameMem s t

/-- From R151, R78 and R79, with `LAST_PC = 4 * (N_INSTR - 1)`: past the window the run halts and nothing else changes;
inside it the step goes on, so an aligned pc up to and including `LAST_PC` has its word run.  That the test is
`pc > LAST_PC` is the spec's own decision, D7 (C1 of `90_conflicts.md`), and that an unmatched word always advances the
pc by 4 its decision D4 (log entry 10). -/
def Obligations.BoundStopsTheLoop : Prop :=
  ∀ s : State, s.run = .running → s.instrTable ≠ [] →
    (4 * (s.instrTable.length - 1) < s.pc → step s = .next { s with run := .halted }) ∧
    (s.pc ≤ 4 * (s.instrTable.length - 1) → s.pc % 4 = 0 →
      ∃ w : Word, s.instrTable[s.pc / 4]? = some w ∧
        (∀ i : Instr, decode w = .ok i → step s = exec i s) ∧
        (∀ e : DecodeReject, decode w = .error e →
          ∃ t : State, step s = .next t ∧ Executed s t (s.pc + 4) ∧ SameRegs s t ∧ SameMem s t))

/-- From R53: a pc inside the window that is not a multiple of 4 faults, whatever the word it points into.  That it is
the fault `FetchUnmapped` is the spec's own decision, D9 (log entry 9). -/
def Obligations.MisalignedFetchFaults : Prop :=
  ∀ s : State, s.run = .running → s.instrTable ≠ [] → s.pc ≤ 4 * (s.instrTable.length - 1) → s.pc % 4 ≠ 0 →
    step s = .fault (.fetchUnmapped s.pc)

/-- From R82: no word is illegal.  Whatever the fetched word, the step answers a next state, but for an `lw` or `sw`
whose effective address is `2^32` or more, which faults with that address (the spec's own decision, D10, log
entry 8). -/
def Obligations.NoWordIsIllegal : Prop :=
  ∀ (s : State) (w : Word), s.run = .running → fetchWord s.instrTable s.pc = some w →
    (∃ t : State, step s = .next t) ∨
    (∃ (i : Instr) (ea : Nat), decode w = .ok i ∧ dataAddress i s = some ea ∧ 2 ^ 32 ≤ ea ∧
      step s = .fault (.addressOverflow ea))

/-- From R171, R173, R174: a step ends in the event the fixed order gives, and in no other way.  A halt changes `run`
only, a fault answers no state, and with no event the step is an executed one.  The two faults are the spec's own
decisions, D9 and D10 (log entries 8 and 9). -/
def Obligations.StepEndsInItsEvent : Prop :=
  ∀ s : State, s.run = .running → s.instrTable ≠ [] →
    (s.stopEvent = some .haltBound → step s = .next { s with run := .halted }) ∧
    (s.stopEvent = some .haltSentinel → step s = .next { s with run := .halted }) ∧
    (∀ a : Nat, s.stopEvent = some (.fetchUnmapped a) → step s = .fault (.fetchUnmapped a)) ∧
    (∀ a : Nat, s.stopEvent = some (.addressOverflow a) → step s = .fault (.addressOverflow a)) ∧
    (s.stopEvent = none → ∃ t : State, step s = .next t ∧ Executed s t t.pc)

/-- From R29 and the vector "a step from HALTED: nothing changes" (`95_test_vectors.md`): HALTED is absorbing.  That
the model answers the same state, and not a stop, is DEDUCED (log entry 4). -/
def Obligations.HaltedIsAbsorbing : Prop :=
  ∀ (k : Nat) (s : State), s.run = .halted → core.run k s = .next s

/-! ### Reset, launch and the invariant -/

/-- From R35 and R191, at the defaults of the launch parameters: pc 0, RUNNING, an empty trace, every register, the
`program` slot and every cell zero.  The zero registers and memory are defaults (log entry 5), the `program` value is
never observable (log entry 6), and that no instruction table is loaded is the model's choice (log entry 3). -/
def Obligations.ResetValues : Prop :=
  State.reset.pc = 0 ∧ State.reset.run = .running ∧ State.reset.trace = [] ∧
  (∀ r : RegId, State.reset.reg r = 0#32) ∧ State.reset.program = 0#32 ∧
  (∀ a : Nat, State.reset.mem.read a = 0#32) ∧ State.reset.instrTable = []

/-- From R35, R43 and R193: a launch starts RUNNING at 0 with an empty trace, the registers and the table as supplied,
each supplied cell at its value and every other cell zero. -/
def Obligations.LaunchValues : Prop :=
  ∀ (initX : Vector Word 32) (initMem : List (Word × Word)) (program : Word) (it : List Word),
    (initMem.map Prod.fst).Nodup →
    (State.launch initX initMem program it).pc = 0 ∧
    (State.launch initX initMem program it).run = .running ∧
    (State.launch initX initMem program it).trace = [] ∧
    (State.launch initX initMem program it).instrTable = it ∧
    (∀ r : RegId, (State.launch initX initMem program it).reg r = initX[r]) ∧
    (∀ c ∈ initMem, (State.launch initX initMem program it).mem.read c.1.toNat = c.2) ∧
    (∀ a : Nat, (∀ c ∈ initMem, c.1.toNat ≠ a) →
      (State.launch initX initMem program it).mem.read a = 0#32)

/-- The invariant holds after reset (the reset values are the model's where `ResetValues` says so). -/
def Obligations.ResetMeetsInvariant : Prop := State.reset.Inv

/-- The invariant holds at the start of every run whose table has `LAST_PC < 2^32` (from R7, R26, R35). -/
def Obligations.LaunchMeetsInvariant : Prop :=
  ∀ (initX : Vector Word 32) (initMem : List (Word × Word)) (program : Word) (it : List Word),
    4 * (it.length - 1) < 2 ^ 32 → (State.launch initX initMem program it).Inv

/-- The invariant: memory canonical with 32-bit keys (R40), pc below `2^33` (R26), `LAST_PC < 2^32` (R7), and the
newest trace entry shows the registers and the pc's low 32 bits as they stand (R27, R159, R160).  Every step keeps
it, from every state that has it. -/
def Obligations.StepKeepsInvariant : Prop :=
  ∀ s t : State, s.Inv → step s = .next t → t.Inv

/-- From R30, R51, R160: over any run the trace only grows at its end, by at most one entry a step and by exactly one
for each step of a machine that still runs; and the instruction table is never mutated. -/
def Obligations.RunExtendsTrace : Prop :=
  ∀ (k : Nat) (s t : State), core.run k s = .next t →
    s.trace <+: t.trace ∧ t.trace.length ≤ s.trace.length + k ∧ t.instrTable = s.instrTable ∧
    (t.run = .running → t.trace.length = s.trace.length + k)

/-! ### Whole-machine rules -/

/-- From R112 ("`jalr` is the only way to transfer control backwards"): a step to a lower pc ran a `jalr`. -/
def Obligations.OnlyJalrGoesBackwards : Prop :=
  ∀ s t : State, step s = .next t → t.pc < s.pc →
    ∃ (w : Word) (rd rs1 : RegId) (imm12 : BitVec 12),
      fetchWord s.instrTable s.pc = some w ∧ decode w = .ok (.jalr rd rs1 imm12)

/-- From R175: from an aligned pc, a misaligned one arises only by a `jalr`, or by a branch or `jal` whose extended
offset is not a multiple of 4. -/
def Obligations.MisalignedPcNeedsTransfer : Prop :=
  ∀ s t : State, step s = .next t → s.pc % 4 = 0 → t.pc % 4 ≠ 0 →
    ∃ (w : Word) (i : Instr), fetchWord s.instrTable s.pc = some w ∧ decode w = .ok i ∧
      ((∃ rd rs1 imm12, i = .jalr rd rs1 imm12) ∨
       (∃ rs1 rs2 imm13, (i = .beq rs1 rs2 imm13 ∨ i = .bne rs1 rs2 imm13 ∨ i = .blt rs1 rs2 imm13 ∨
          i = .bge rs1 rs2 imm13) ∧ (qext32 imm13).toNat % 4 ≠ 0) ∨
       (∃ rd imm21, i = .jal rd imm21 ∧ (qext32 imm21).toNat % 4 ≠ 0))

/-- From R20 and R40 ("only `sw` writes it"): a step that changes the data memory ran an `sw`. -/
def Obligations.OnlyStoreWritesMemory : Prop :=
  ∀ s t : State, step s = .next t → t.mem ≠ s.mem →
    ∃ (w : Word) (rs1 rs2 : RegId) (imm12 : BitVec 12),
      fetchWord s.instrTable s.pc = some w ∧ decode w = .ok (.sw rs1 rs2 imm12)

/-- From R20 and R40 ("Only `lw` reads `M`"): of two machines that differ in the data memory only, a step that runs no
`lw` leaves everything but the memory equal. -/
def Obligations.OnlyLoadReadsMemory : Prop :=
  ∀ (s t : State) (m : Memory),
    (∀ w : Word, fetchWord s.instrTable s.pc = some w →
      ∀ (rd rs1 : RegId) (imm12 : BitVec 12), decode w ≠ .ok (.lw rd rs1 imm12)) →
    step s = .next t →
    ∃ t' : State, step { s with mem := m } = .next t' ∧ { t' with mem := t.mem } = t

/-- From R27, R30 and U10: nothing reads the `program` slot or the trace.  Whatever they hold, a step that goes on
runs the same and appends the same entry. -/
def Obligations.ProgramSlotAndTraceAreNeverRead : Prop :=
  ∀ (s t : State) (p : Word) (tr : List TraceEntry), step s = .next t → t.run = .running →
    step { s with program := p, trace := tr } = .next { t with trace := tr ++ [⟨t.program, t.regs⟩] }

/-- From R129 and R163: a taken branch with offset 0 that is not the sentinel word repeats for ever.  Any number of
steps stays RUNNING at the same pc with the same registers, and each makes its own trace entry. -/
def Obligations.ZeroOffsetBranchRepeats : Prop :=
  ∀ (s : State) (w : Word) (rs1 rs2 : RegId), s.run = .running → fetchWord s.instrTable s.pc = some w →
    ((decode w = .ok (.beq rs1 rs2 0#13) ∧ s.reg rs1 = s.reg rs2) ∨
     (decode w = .ok (.bne rs1 rs2 0#13) ∧ s.reg rs1 ≠ s.reg rs2) ∨
     (decode w = .ok (.blt rs1 rs2 0#13) ∧ (s.reg rs1).toNat < (s.reg rs2).toNat) ∨
     (decode w = .ok (.bge rs1 rs2 0#13) ∧ (s.reg rs2).toNat ≤ (s.reg rs1).toNat)) →
    ∀ k : Nat, ∃ t : State, core.run k s = .next t ∧ t.run = .running ∧ t.pc = s.pc ∧ SameRegs s t ∧
      t.trace.length = s.trace.length + k

/-- From R171, R175, R194: a run from an aligned pc over a table none of whose instructions accesses data, is a
`jalr`, or has a branch or jump offset that is not a multiple of 4, reaches no fault, whatever its length.  Which
offsets those are rests on the spec's decision D21 (log entry 10). -/
def Obligations.AlignedTablesNeverFault : Prop :=
  ∀ s : State, s.pc % 4 = 0 →
    (∀ w ∈ s.instrTable, ∀ i : Instr, decode w = .ok i → neverFaults i = true) → FaultFree s

/-- From R171, R175, R194, the step behind `AlignedTablesNeverFault`: an aligned pc over such a table is kept by every
next state, no step from it faults, and with a table launched every step answers a next state.  Which offsets are
multiples of 4 rests on the spec's decision D21 (log entry 10). -/
def Obligations.StepKeepsSafeTable : Prop :=
  ∀ s : State, s.SafeTable →
    (∀ t : State, step s = .next t → t.SafeTable) ∧
    (∀ f : Fault, step s ≠ .fault f) ∧
    (s.instrTable ≠ [] → ∃ t : State, step s = .next t)

/-! ### Data memory -/

/-- R46: a stored value is read until the next write to the same key, and a store followed by a load that computes the
same address, however it is formed, returns the stored value. -/
def Obligations.StoreThenLoad : Prop :=
  (∀ (m : Memory) (a : Nat) (v : Word) (later : List (Nat × Word)), m.wf → a < 2 ^ 32 →
    (∀ c ∈ later, c.1 < 2 ^ 32 ∧ c.1 ≠ a) →
    Memory.read (later.foldl (fun n c => Memory.write n c.1 c.2) (Memory.write m a v)) a = v) ∧
  (∀ (s t : State) (rs1 rs2 rd rs : RegId) (imm imm' : BitVec 12), s.mem.wf →
    exec (.sw rs1 rs2 imm) s = .next t →
    (t.reg rs).toNat + (qext32 imm').toNat = (s.reg rs1).toNat + (qext32 imm).toNat →
    ∃ u : State, exec (.lw rd rs imm') t = .next u ∧ u.reg rd = s.reg rs2)

/-- Equal memories are equal data: two canonical memories that read the same at every key are the same list (the
list form is the model's, log entry 7). -/
def Obligations.CanonicalMemoryIsExtensional : Prop :=
  ∀ m n : Memory, m.wf → n.wf → (∀ a : Nat, m.read a = n.read a) → m = n

/-! ### Encoding -/

/-- Decoding the encoding of a well-formed instruction gives it back (from R62 to R75). -/
def Obligations.DecodeOfEncode : Prop :=
  ∀ i : Instr, i.wf = true → decode (encode i) = .ok i

/-- Every word that decodes is the word of its instruction, which is well formed: no bit of an instruction word is
dropped (from R62 to R75). -/
def Obligations.EncodeOfDecode : Prop :=
  ∀ (w : Word) (i : Instr), decode w = .ok i → i.wf = true ∧ encode i = w

/-- From R74, R75, R85: the decoder takes the first row of the opcode table that holds of the word, and rejects
exactly the words of no row.  The table's numbers are the spec's defaults D1, D2 and D5 (PRESUMED, log entry 1). -/
def Obligations.DecoderFollowsTable : Prop :=
  ∀ w : Word,
    (∀ i : Instr, decode w = .ok i → opcodeTable.find? (fun r => w &&& r.mask == r.pattern) = some i.row) ∧
    (∀ e : DecodeReject, decode w = .error e → ∀ r ∈ opcodeTable, w &&& r.mask ≠ r.pattern)

/-- From R68 to R72: the immediate each format's word carries, as a number. -/
def Obligations.ImmediatesOfWords : Prop :=
  ∀ w : Word,
    (imm12IOf w).toNat = w.toNat / 2 ^ 20 ∧
    (imm12SOf w).toNat = w.toNat / 2 ^ 25 * 2 ^ 5 + w.toNat / 2 ^ 7 % 2 ^ 5 ∧
    (imm13Of w).toNat = w.toNat / 2 ^ 31 * 2 ^ 12 + w.toNat / 2 ^ 7 % 2 * 2 ^ 11 +
      w.toNat / 2 ^ 25 % 2 ^ 6 * 2 ^ 5 + w.toNat / 2 ^ 8 % 2 ^ 4 * 2 ∧
    (imm20Of w).toNat = w.toNat / 2 ^ 12 ∧
    (imm21Of w).toNat = w.toNat / 2 ^ 31 * 2 ^ 20 + w.toNat / 2 ^ 12 % 2 ^ 8 * 2 ^ 12 +
      w.toNat / 2 ^ 20 % 2 * 2 ^ 11 + w.toNat / 2 ^ 21 % 2 ^ 10 * 2

/-- One word of each family, from `95_test_vectors.md`: `add x1,x2,x3`, `lw x1,8(x2)`, `sw x3,0x7FF(x2)`,
`beq x1,x2,0x1FFC`, `lui x1,0xABCDE`, `jal x1,0xFF800`, the sentinel, and two words that are no instruction.  The codes
in these words are the spec's defaults D1, D2 and D5 (PRESUMED, log entry 1). -/
def Obligations.SampleWordsDecode : Prop :=
  decode 0x003100B3#32 = .ok (.add 1 2 3) ∧ decode 0x00812083#32 = .ok (.lw 1 2 8#12) ∧
  decode 0x7E312FA3#32 = .ok (.sw 2 3 0x7FF#12) ∧ decode 0xFE208EE3#32 = .ok (.beq 1 2 0x1FFC#13) ∧
  decode 0xABCDE0B7#32 = .ok (.lui 1 0xABCDE#20) ∧ decode 0x001FF0EF#32 = .ok (.jal 1 0xFF800#21) ∧
  decode 0x00000063#32 = .ok .halt ∧ decode 0x403150B3#32 = .error .unmatched ∧
  decode 0x00000073#32 = .error .unrecognised

/-- A word loaded where the next step fetches is what the next step runs, whatever the state (the load is the
model's, log entry 13). -/
def Obligations.PlacedWordRuns : Prop :=
  ∀ (s : State) (nbits w : Nat) (i : Instr), decodeTableWord nbits w = some i →
    step (s.withFetchWord nbits w) = exec i (s.withFetchWord nbits w)

/-! ### Text forms -/

/-- R161: a line begins with the `program` token, holds one token per register in ascending order, each after a single
space, and is 1288 characters long. -/
def Obligations.TraceLineForm : Prop :=
  ∀ e : TraceEntry, e.line.toList.length = 1288 ∧
    e.line.toList.take 8 = ['p', 'r', 'o', 'g', 'r', 'a', 'm', '='] ∧
    (∀ d : Nat, d < 32 → e.line.toList[8 + d]? = some (if e.program.getMsbD d then '1' else '0')) ∧
    (∀ r : RegId, e.line.toList[40 + 39 * r.val]? = some ' ' ∧
      (∀ d : Nat, d < 5 → e.line.toList[41 + 39 * r.val + d]? = some (if r.val / 2 ^ (4 - d) % 2 = 1 then '1' else '0')) ∧
      e.line.toList[46 + 39 * r.val]? = some ':' ∧
      (∀ d : Nat, d < 32 → e.line.toList[47 + 39 * r.val + d]? = some (if e.regs[r].getMsbD d then '1' else '0')))

/-- From R161 ("the string form adds no information") and R164: two entries with the same line are the same entry. -/
def Obligations.TraceLineIsInjective : Prop :=
  ∀ e f : TraceEntry, e.line = f.line → e = f

/-- R17: an address string is the address in base 16 with exactly 8 lower-case digits, leading zeros kept, and each
string of 8 such digits is the key of exactly one address. -/
def Obligations.AddressStringBijection : Prop :=
  (∀ a : Word, (hex8 a).length = 8 ∧
    ∀ d : Nat, d < 8 → (hex8 a)[d]? =
      ['0', '1', '2', '3', '4', '5', '6', '7', '8', '9', 'a', 'b', 'c', 'd', 'e', 'f'][a.toNat / 16 ^ (7 - d) % 16]?) ∧
  (∀ a b : Word, hex8 a = hex8 b → a = b) ∧
  (∀ cs : List Char, cs.length = 8 →
    (∀ c ∈ cs, c ∈ ['0', '1', '2', '3', '4', '5', '6', '7', '8', '9', 'a', 'b', 'c', 'd', 'e', 'f']) →
    ∃ a : Word, hex8 a = cs)
end

