-- ==== Sys2Proof/Laws/Decode.lean ====
section
/-! SUPPORT. The fields of an encoded word, one lemma per field per format, and the word made of a word's own
fields (`30_encoding.md` R61 to R67). Each is bit by bit; later proofs cite them and unfold no format. -/

namespace Sys2Proof

/-! ### R format -/

@[simp] theorem opcodeOf_encodeR (f7 : BitVec 7) (f3 : BitVec 3) (rd rs1 rs2 : RegId) :
    opcodeOf (encodeR f7 f3 rd rs1 rs2) = Config.opcR := by
  apply BitVec.eq_of_getLsbD_eq
  intro i hi
  simp only [opcodeOf, encodeR, BitVec.getLsbD_extractLsb', BitVec.getLsbD_append]
  interval_cases i <;> simp

@[simp] theorem funct3Of_encodeR (f7 : BitVec 7) (f3 : BitVec 3) (rd rs1 rs2 : RegId) :
    funct3Of (encodeR f7 f3 rd rs1 rs2) = f3 := by
  apply BitVec.eq_of_getLsbD_eq
  intro i hi
  simp only [funct3Of, encodeR, BitVec.getLsbD_extractLsb', BitVec.getLsbD_append]
  interval_cases i <;> simp

@[simp] theorem funct7Of_encodeR (f7 : BitVec 7) (f3 : BitVec 3) (rd rs1 rs2 : RegId) :
    funct7Of (encodeR f7 f3 rd rs1 rs2) = f7 := by
  apply BitVec.eq_of_getLsbD_eq
  intro i hi
  simp only [funct7Of, encodeR, BitVec.getLsbD_extractLsb', BitVec.getLsbD_append]
  interval_cases i <;> simp

@[simp] theorem rdOf_encodeR (f7 : BitVec 7) (f3 : BitVec 3) (rd rs1 rs2 : RegId) :
    rdOf (encodeR f7 f3 rd rs1 rs2) = rd := by
  have h : (encodeR f7 f3 rd rs1 rs2).extractLsb' 7 5 = regBits rd := by
    apply BitVec.eq_of_getLsbD_eq
    intro i hi
    simp only [encodeR, BitVec.getLsbD_extractLsb', BitVec.getLsbD_append]
    interval_cases i <;> simp
  simp only [rdOf, h]
  rfl

@[simp] theorem rs1Of_encodeR (f7 : BitVec 7) (f3 : BitVec 3) (rd rs1 rs2 : RegId) :
    rs1Of (encodeR f7 f3 rd rs1 rs2) = rs1 := by
  have h : (encodeR f7 f3 rd rs1 rs2).extractLsb' 15 5 = regBits rs1 := by
    apply BitVec.eq_of_getLsbD_eq
    intro i hi
    simp only [encodeR, BitVec.getLsbD_extractLsb', BitVec.getLsbD_append]
    interval_cases i <;> simp
  simp only [rs1Of, h]
  rfl

@[simp] theorem rs2Of_encodeR (f7 : BitVec 7) (f3 : BitVec 3) (rd rs1 rs2 : RegId) :
    rs2Of (encodeR f7 f3 rd rs1 rs2) = rs2 := by
  have h : (encodeR f7 f3 rd rs1 rs2).extractLsb' 20 5 = regBits rs2 := by
    apply BitVec.eq_of_getLsbD_eq
    intro i hi
    simp only [encodeR, BitVec.getLsbD_extractLsb', BitVec.getLsbD_append]
    interval_cases i <;> simp
  simp only [rs2Of, h]
  rfl

/-! ### I format -/

@[simp] theorem opcodeOf_encodeI (opc : BitVec 7) (f3 : BitVec 3) (rd rs1 : RegId) (imm : BitVec 12) :
    opcodeOf (encodeI opc f3 rd rs1 imm) = opc := by
  apply BitVec.eq_of_getLsbD_eq
  intro i hi
  simp only [opcodeOf, encodeI, BitVec.getLsbD_extractLsb', BitVec.getLsbD_append]
  interval_cases i <;> simp

@[simp] theorem funct3Of_encodeI (opc : BitVec 7) (f3 : BitVec 3) (rd rs1 : RegId) (imm : BitVec 12) :
    funct3Of (encodeI opc f3 rd rs1 imm) = f3 := by
  apply BitVec.eq_of_getLsbD_eq
  intro i hi
  simp only [funct3Of, encodeI, BitVec.getLsbD_extractLsb', BitVec.getLsbD_append]
  interval_cases i <;> simp

@[simp] theorem rdOf_encodeI (opc : BitVec 7) (f3 : BitVec 3) (rd rs1 : RegId) (imm : BitVec 12) :
    rdOf (encodeI opc f3 rd rs1 imm) = rd := by
  have h : (encodeI opc f3 rd rs1 imm).extractLsb' 7 5 = regBits rd := by
    apply BitVec.eq_of_getLsbD_eq
    intro i hi
    simp only [encodeI, BitVec.getLsbD_extractLsb', BitVec.getLsbD_append]
    interval_cases i <;> simp
  simp only [rdOf, h]
  rfl

@[simp] theorem rs1Of_encodeI (opc : BitVec 7) (f3 : BitVec 3) (rd rs1 : RegId) (imm : BitVec 12) :
    rs1Of (encodeI opc f3 rd rs1 imm) = rs1 := by
  have h : (encodeI opc f3 rd rs1 imm).extractLsb' 15 5 = regBits rs1 := by
    apply BitVec.eq_of_getLsbD_eq
    intro i hi
    simp only [encodeI, BitVec.getLsbD_extractLsb', BitVec.getLsbD_append]
    interval_cases i <;> simp
  simp only [rs1Of, h]
  rfl

@[simp] theorem imm12IOf_encodeI (opc : BitVec 7) (f3 : BitVec 3) (rd rs1 : RegId) (imm : BitVec 12) :
    imm12IOf (encodeI opc f3 rd rs1 imm) = imm := by
  apply BitVec.eq_of_getLsbD_eq
  intro i hi
  simp only [imm12IOf, encodeI, BitVec.getLsbD_extractLsb', BitVec.getLsbD_append]
  interval_cases i <;> simp

/-! ### S format -/

@[simp] theorem opcodeOf_encodeS (f3 : BitVec 3) (rs1 rs2 : RegId) (imm : BitVec 12) :
    opcodeOf (encodeS f3 rs1 rs2 imm) = Config.opcStore := by
  apply BitVec.eq_of_getLsbD_eq
  intro i hi
  simp only [opcodeOf, encodeS, BitVec.getLsbD_extractLsb', BitVec.getLsbD_append]
  interval_cases i <;> simp

@[simp] theorem funct3Of_encodeS (f3 : BitVec 3) (rs1 rs2 : RegId) (imm : BitVec 12) :
    funct3Of (encodeS f3 rs1 rs2 imm) = f3 := by
  apply BitVec.eq_of_getLsbD_eq
  intro i hi
  simp only [funct3Of, encodeS, BitVec.getLsbD_extractLsb', BitVec.getLsbD_append]
  interval_cases i <;> simp

@[simp] theorem rs1Of_encodeS (f3 : BitVec 3) (rs1 rs2 : RegId) (imm : BitVec 12) :
    rs1Of (encodeS f3 rs1 rs2 imm) = rs1 := by
  have h : (encodeS f3 rs1 rs2 imm).extractLsb' 15 5 = regBits rs1 := by
    apply BitVec.eq_of_getLsbD_eq
    intro i hi
    simp only [encodeS, BitVec.getLsbD_extractLsb', BitVec.getLsbD_append]
    interval_cases i <;> simp
  simp only [rs1Of, h]
  rfl

@[simp] theorem rs2Of_encodeS (f3 : BitVec 3) (rs1 rs2 : RegId) (imm : BitVec 12) :
    rs2Of (encodeS f3 rs1 rs2 imm) = rs2 := by
  have h : (encodeS f3 rs1 rs2 imm).extractLsb' 20 5 = regBits rs2 := by
    apply BitVec.eq_of_getLsbD_eq
    intro i hi
    simp only [encodeS, BitVec.getLsbD_extractLsb', BitVec.getLsbD_append]
    interval_cases i <;> simp
  simp only [rs2Of, h]
  rfl

@[simp] theorem imm12SOf_encodeS (f3 : BitVec 3) (rs1 rs2 : RegId) (imm : BitVec 12) :
    imm12SOf (encodeS f3 rs1 rs2 imm) = imm := by
  apply BitVec.eq_of_getLsbD_eq
  intro i hi
  simp only [imm12SOf, encodeS, BitVec.getLsbD_extractLsb', BitVec.getLsbD_append]
  interval_cases i <;> simp

/-! ### B format: the immediate comes back when its bit 0 is 0 -/

@[simp] theorem opcodeOf_encodeB (f3 : BitVec 3) (rs1 rs2 : RegId) (imm : BitVec 13) :
    opcodeOf (encodeB f3 rs1 rs2 imm) = Config.opcBranch := by
  apply BitVec.eq_of_getLsbD_eq
  intro i hi
  simp only [opcodeOf, encodeB, BitVec.getLsbD_extractLsb', BitVec.getLsbD_append]
  interval_cases i <;> simp

@[simp] theorem funct3Of_encodeB (f3 : BitVec 3) (rs1 rs2 : RegId) (imm : BitVec 13) :
    funct3Of (encodeB f3 rs1 rs2 imm) = f3 := by
  apply BitVec.eq_of_getLsbD_eq
  intro i hi
  simp only [funct3Of, encodeB, BitVec.getLsbD_extractLsb', BitVec.getLsbD_append]
  interval_cases i <;> simp

@[simp] theorem rs1Of_encodeB (f3 : BitVec 3) (rs1 rs2 : RegId) (imm : BitVec 13) :
    rs1Of (encodeB f3 rs1 rs2 imm) = rs1 := by
  have h : (encodeB f3 rs1 rs2 imm).extractLsb' 15 5 = regBits rs1 := by
    apply BitVec.eq_of_getLsbD_eq
    intro i hi
    simp only [encodeB, BitVec.getLsbD_extractLsb', BitVec.getLsbD_append]
    interval_cases i <;> simp
  simp only [rs1Of, h]
  rfl

@[simp] theorem rs2Of_encodeB (f3 : BitVec 3) (rs1 rs2 : RegId) (imm : BitVec 13) :
    rs2Of (encodeB f3 rs1 rs2 imm) = rs2 := by
  have h : (encodeB f3 rs1 rs2 imm).extractLsb' 20 5 = regBits rs2 := by
    apply BitVec.eq_of_getLsbD_eq
    intro i hi
    simp only [encodeB, BitVec.getLsbD_extractLsb', BitVec.getLsbD_append]
    interval_cases i <;> simp
  simp only [rs2Of, h]
  rfl

@[simp] theorem imm13Of_encodeB (f3 : BitVec 3) (rs1 rs2 : RegId) {imm : BitVec 13} (h : evenImm imm = true) :
    imm13Of (encodeB f3 rs1 rs2 imm) = imm := by
  have h0 : imm[0] = false := by simpa [evenImm] using h
  apply BitVec.eq_of_getLsbD_eq
  intro i hi
  simp only [imm13Of, encodeB, BitVec.getLsbD_extractLsb', BitVec.getLsbD_append]
  interval_cases i <;> simp [h0]

/-! ### U format -/

@[simp] theorem opcodeOf_encodeU (opc : BitVec 7) (rd : RegId) (imm : BitVec 20) :
    opcodeOf (encodeU opc rd imm) = opc := by
  apply BitVec.eq_of_getLsbD_eq
  intro i hi
  simp only [opcodeOf, encodeU, BitVec.getLsbD_extractLsb', BitVec.getLsbD_append]
  interval_cases i <;> simp

@[simp] theorem rdOf_encodeU (opc : BitVec 7) (rd : RegId) (imm : BitVec 20) :
    rdOf (encodeU opc rd imm) = rd := by
  have h : (encodeU opc rd imm).extractLsb' 7 5 = regBits rd := by
    apply BitVec.eq_of_getLsbD_eq
    intro i hi
    simp only [encodeU, BitVec.getLsbD_extractLsb', BitVec.getLsbD_append]
    interval_cases i <;> simp
  simp only [rdOf, h]
  rfl

@[simp] theorem imm20Of_encodeU (opc : BitVec 7) (rd : RegId) (imm : BitVec 20) :
    imm20Of (encodeU opc rd imm) = imm := by
  apply BitVec.eq_of_getLsbD_eq
  intro i hi
  simp only [imm20Of, encodeU, BitVec.getLsbD_extractLsb', BitVec.getLsbD_append]
  interval_cases i <;> simp

/-! ### J format: the immediate comes back when its bit 0 is 0 -/

@[simp] theorem opcodeOf_encodeJ (rd : RegId) (imm : BitVec 21) :
    opcodeOf (encodeJ rd imm) = Config.opcJal := by
  apply BitVec.eq_of_getLsbD_eq
  intro i hi
  simp only [opcodeOf, encodeJ, BitVec.getLsbD_extractLsb', BitVec.getLsbD_append]
  interval_cases i <;> simp

@[simp] theorem rdOf_encodeJ (rd : RegId) (imm : BitVec 21) :
    rdOf (encodeJ rd imm) = rd := by
  have h : (encodeJ rd imm).extractLsb' 7 5 = regBits rd := by
    apply BitVec.eq_of_getLsbD_eq
    intro i hi
    simp only [encodeJ, BitVec.getLsbD_extractLsb', BitVec.getLsbD_append]
    interval_cases i <;> simp
  simp only [rdOf, h]
  rfl

@[simp] theorem imm21Of_encodeJ (rd : RegId) {imm : BitVec 21} (h : evenImm imm = true) :
    imm21Of (encodeJ rd imm) = imm := by
  have h0 : imm[0] = false := by simpa [evenImm] using h
  apply BitVec.eq_of_getLsbD_eq
  intro i hi
  simp only [imm21Of, encodeJ, BitVec.getLsbD_extractLsb', BitVec.getLsbD_append]
  interval_cases i <;> simp [h0]

/-! ### A word is the encoding of its own fields -/

/-- The bits of the register a word's field names. -/
theorem regBits_toFin (b : BitVec 5) : regBits b.toFin = b := rfl

theorem encodeR_fields {w : Word} (h : opcodeOf w = Config.opcR) :
    encodeR (funct7Of w) (funct3Of w) (rdOf w) (rs1Of w) (rs2Of w) = w := by
  apply BitVec.eq_of_getLsbD_eq
  intro i hi
  simp only [encodeR, ← h, opcodeOf, funct7Of, funct3Of, rdOf, rs1Of, rs2Of, regBits_toFin, BitVec.getLsbD_append, BitVec.getLsbD_extractLsb']
  interval_cases i <;> simp

theorem encodeI_fields {w : Word}  :
    encodeI (opcodeOf w) (funct3Of w) (rdOf w) (rs1Of w) (imm12IOf w) = w := by
  apply BitVec.eq_of_getLsbD_eq
  intro i hi
  simp only [encodeI, opcodeOf, funct3Of, rdOf, rs1Of, imm12IOf, regBits_toFin, BitVec.getLsbD_append, BitVec.getLsbD_extractLsb']
  interval_cases i <;> simp

theorem encodeS_fields {w : Word} (h : opcodeOf w = Config.opcStore) :
    encodeS (funct3Of w) (rs1Of w) (rs2Of w) (imm12SOf w) = w := by
  apply BitVec.eq_of_getLsbD_eq
  intro i hi
  simp only [encodeS, ← h, opcodeOf, funct3Of, rs1Of, rs2Of, imm12SOf, regBits_toFin, BitVec.getLsbD_append, BitVec.getLsbD_extractLsb']
  interval_cases i <;> simp

theorem encodeB_fields {w : Word} (h : opcodeOf w = Config.opcBranch) :
    encodeB (funct3Of w) (rs1Of w) (rs2Of w) (imm13Of w) = w := by
  apply BitVec.eq_of_getLsbD_eq
  intro i hi
  simp only [encodeB, ← h, opcodeOf, funct3Of, rs1Of, rs2Of, imm13Of, regBits_toFin, BitVec.getLsbD_append, BitVec.getLsbD_extractLsb']
  interval_cases i <;> simp

theorem encodeU_fields {w : Word}  :
    encodeU (opcodeOf w) (rdOf w) (imm20Of w) = w := by
  apply BitVec.eq_of_getLsbD_eq
  intro i hi
  simp only [encodeU, opcodeOf, rdOf, imm20Of, regBits_toFin, BitVec.getLsbD_append, BitVec.getLsbD_extractLsb']
  interval_cases i <;> simp

theorem encodeJ_fields {w : Word} (h : opcodeOf w = Config.opcJal) :
    encodeJ (rdOf w) (imm21Of w) = w := by
  apply BitVec.eq_of_getLsbD_eq
  intro i hi
  simp only [encodeJ, ← h, opcodeOf, rdOf, imm21Of, regBits_toFin, BitVec.getLsbD_append, BitVec.getLsbD_extractLsb']
  interval_cases i <;> simp

/-- An assembled branch immediate has bit 0 clear (R65). -/
theorem evenImm_imm13Of (w : Word) : evenImm (imm13Of w) = true := by
  simp only [evenImm, imm13Of, BitVec.getLsbD_append]
  simp

/-- An assembled jump immediate has bit 0 clear (R67). -/
theorem evenImm_imm21Of (w : Word) : evenImm (imm21Of w) = true := by
  simp only [evenImm, imm21Of, BitVec.getLsbD_append]
  simp

/-! ### The sentinel's fields (R81) -/

theorem opcodeOf_haltWord : opcodeOf Config.haltWord = Config.opcBranch := by decide
theorem funct3Of_haltWord : funct3Of Config.haltWord = Config.f3Beq := by decide
theorem rs1Of_haltWord : rs1Of Config.haltWord = 0 := by decide
theorem rs2Of_haltWord : rs2Of Config.haltWord = 0 := by decide
theorem imm13Of_haltWord : imm13Of Config.haltWord = 0#13 := by decide

/-- A word of another opcode is not the sentinel. -/
theorem ne_haltWord_of_opcode {w : Word} (h : opcodeOf w ≠ Config.opcBranch) : w ≠ Config.haltWord :=
  fun e => h (e ▸ opcodeOf_haltWord)

/-- A word of another function code is not the sentinel. -/
theorem ne_haltWord_of_funct3 {w : Word} (h : funct3Of w ≠ Config.f3Beq) : w ≠ Config.haltWord :=
  fun e => h (e ▸ funct3Of_haltWord)

/-! ### The opcode selects the unit (R73, R75) -/

theorem decode_opcR {w : Word} (h : opcodeOf w = Config.opcR) : decode w = decodeR w := by
  have hw : w ≠ Config.haltWord := ne_haltWord_of_opcode (by rw [h]; decide)
  simp only [decode, if_neg hw, h]
  rfl

theorem decode_opcLoad {w : Word} (h : opcodeOf w = Config.opcLoad) : decode w = decodeLoad w := by
  have hw : w ≠ Config.haltWord := ne_haltWord_of_opcode (by rw [h]; decide)
  simp only [decode, if_neg hw, h]
  rfl

theorem decode_opcOpImm {w : Word} (h : opcodeOf w = Config.opcOpImm) : decode w = decodeOpImm w := by
  have hw : w ≠ Config.haltWord := ne_haltWord_of_opcode (by rw [h]; decide)
  simp only [decode, if_neg hw, h]
  rfl

theorem decode_opcJalr {w : Word} (h : opcodeOf w = Config.opcJalr) : decode w = decodeJalr w := by
  have hw : w ≠ Config.haltWord := ne_haltWord_of_opcode (by rw [h]; decide)
  simp only [decode, if_neg hw, h]
  rfl

theorem decode_opcStore {w : Word} (h : opcodeOf w = Config.opcStore) : decode w = decodeStore w := by
  have hw : w ≠ Config.haltWord := ne_haltWord_of_opcode (by rw [h]; decide)
  simp only [decode, if_neg hw, h]
  rfl

theorem decode_opcBranch {w : Word} (h : opcodeOf w = Config.opcBranch) (hw : w ≠ Config.haltWord) :
    decode w = decodeBranch w := by
  simp only [decode, if_neg hw, h]
  rfl

theorem decode_opcLui {w : Word} (h : opcodeOf w = Config.opcLui) : decode w = .ok (.lui (rdOf w) (imm20Of w)) := by
  have hw : w ≠ Config.haltWord := ne_haltWord_of_opcode (by rw [h]; decide)
  simp only [decode, if_neg hw, h]
  rfl

theorem decode_opcAuipc {w : Word} (h : opcodeOf w = Config.opcAuipc) : decode w = .ok (.auipc (rdOf w) (imm20Of w)) := by
  have hw : w ≠ Config.haltWord := ne_haltWord_of_opcode (by rw [h]; decide)
  simp only [decode, if_neg hw, h]
  rfl

theorem decode_opcJal {w : Word} (h : opcodeOf w = Config.opcJal) : decode w = .ok (.jal (rdOf w) (imm21Of w)) := by
  have hw : w ≠ Config.haltWord := ne_haltWord_of_opcode (by rw [h]; decide)
  simp only [decode, if_neg hw, h]
  rfl

/-! ### The opcode table's three masks keep whole fields (R74) -/

/-- The R rows' mask keeps `funct7`, `funct3` and the opcode. -/
theorem and_maskR (w : Word) :
    w &&& 0xFE00707F#32 = funct7Of w ++ 0#10 ++ funct3Of w ++ 0#5 ++ opcodeOf w := by
  apply BitVec.eq_of_getLsbD_eq
  intro i hi
  simp only [opcodeOf, funct3Of, funct7Of, BitVec.getLsbD_append, BitVec.getLsbD_extractLsb']
  interval_cases i <;> simp

/-- The I, S and B rows' mask keeps `funct3` and the opcode. -/
theorem and_maskF3 (w : Word) :
    w &&& 0x0000707F#32 = 0#17 ++ funct3Of w ++ 0#5 ++ opcodeOf w := by
  apply BitVec.eq_of_getLsbD_eq
  intro i hi
  simp only [opcodeOf, funct3Of, BitVec.getLsbD_append, BitVec.getLsbD_extractLsb']
  interval_cases i <;> simp

/-- The U and J rows' mask keeps the opcode. -/
theorem and_maskOpc (w : Word) : w &&& 0x0000007F#32 = 0#25 ++ opcodeOf w := by
  apply BitVec.eq_of_getLsbD_eq
  intro i hi
  simp only [opcodeOf, BitVec.getLsbD_append, BitVec.getLsbD_extractLsb']
  interval_cases i <;> simp

/-- The sentinel row's mask keeps the whole word. -/
theorem and_maskAll (w : Word) : w &&& 0xFFFFFFFF#32 = w := by
  apply BitVec.eq_of_getLsbD_eq
  intro i hi
  interval_cases i <;> simp

end Sys2Proof
end

