-- ==== Sys2Proof/Laws/Memory.lean ====
section
/-! SUPPORT. The laws of the data memory: every operation keeps the canonical form, and a write is read back at its
key and nowhere else (`20_memory.md` R44, R45). -/

namespace Sys2Proof.Machine

theorem Memory.wf_nil : Memory.wf [] := by simp [Memory.wf]

/-- A canonical memory's tail is canonical and its keys lie above the head's. -/
theorem Memory.wf_cons {b : Nat} {u : Word} {m : Memory} :
    Memory.wf ((b, u) :: m) ↔
      (∀ c ∈ m, b < c.1) ∧ b < Config.addrBound ∧ u ≠ Config.memDefault ∧ Memory.wf m := by
  simp only [Memory.wf, List.pairwise_cons, List.mem_cons, forall_eq_or_imp]
  tauto

/-- A key no entry carries reads as the default. -/
theorem Memory.read_absent {m : Memory} {a : Nat} (h : ∀ c ∈ m, c.1 ≠ a) : m.read a = Config.memDefault := by
  induction m with
  | nil => rfl
  | cons c m ih =>
    have hc : a ≠ c.1 := fun e => h c (by simp) e.symm
    simpa [Memory.read, hc] using ih fun d hd => h d (by simp [hd])

/-- Where a written memory's entries come from. -/
theorem Memory.mem_write {m : Memory} {a : Nat} {v : Word} {c : Nat × Word} (h : c ∈ m.write a v) :
    c ∈ m ∨ (c = (a, v) ∧ v ≠ Config.memDefault) := by
  induction m with
  | nil =>
    simp only [Memory.write] at h
    split at h <;> simp_all
  | cons d m ih =>
    simp only [Memory.write] at h
    split at h
    · split at h <;> simp_all
      tauto
    · split at h
      · split at h <;> simp_all
        tauto
      · rcases List.mem_cons.1 h with h | h
        · simp [h]
        · rcases ih h with h | h <;> simp [h]

/-- A write at a 32-bit key keeps the canonical form. -/
theorem Memory.write_wf {m : Memory} {a : Nat} (v : Word) (h : m.wf) (ha : a < Config.addrBound) :
    (m.write a v).wf := by
  induction m with
  | nil =>
    simp only [Memory.write]
    split <;> simp_all [Memory.wf]
  | cons c m ih =>
    obtain ⟨b, u⟩ := c
    obtain ⟨hlt, hb, hu, hm⟩ := Memory.wf_cons.1 h
    simp only [Memory.write]
    split
    next hab =>
      split
      · exact h
      next hv =>
        refine Memory.wf_cons.2 ⟨?_, ha, hv, h⟩
        rintro d hd
        rcases List.mem_cons.1 hd with rfl | hd
        · exact hab
        · exact hab.trans (hlt d hd)
    next hab =>
      split
      next hEq =>
        subst hEq
        split
        · exact hm
        next hv => exact Memory.wf_cons.2 ⟨hlt, ha, hv, hm⟩
      next hne =>
        refine Memory.wf_cons.2 ⟨?_, hb, hu, ih hm⟩
        intro d hd
        rcases Memory.mem_write hd with hd | ⟨rfl, -⟩
        · exact hlt d hd
        · simp only; omega

/-- A write is read back at its key. -/
theorem Memory.read_write_same {m : Memory} (a : Nat) (v : Word) (h : m.wf) : (m.write a v).read a = v := by
  induction m with
  | nil =>
    simp only [Memory.write]
    split <;> simp_all [Memory.read]
  | cons c m ih =>
    obtain ⟨b, u⟩ := c
    obtain ⟨hlt, -, -, hm⟩ := Memory.wf_cons.1 h
    simp only [Memory.write]
    split
    next hab =>
      split
      next hv =>
        rw [Memory.read_absent, hv]
        intro d hd
        rcases List.mem_cons.1 hd with rfl | hd
        · exact (Nat.ne_of_lt hab).symm
        · have := hlt d hd; omega
      · simp [Memory.read]
    next hab =>
      split
      next hEq =>
        subst hEq
        split
        next hv =>
          rw [Memory.read_absent, hv]
          intro d hd
          exact (Nat.ne_of_lt (hlt d hd)).symm
        · simp [Memory.read]
      next hne => simpa [Memory.read, hne] using ih hm

/-- A write leaves every other key as it was. -/
theorem Memory.read_write_other {m : Memory} {a b : Nat} (v : Word) (h : m.wf) (hne : b ≠ a) :
    (m.write a v).read b = m.read b := by
  induction m with
  | nil =>
    simp only [Memory.write]
    split <;> simp_all [Memory.read]
  | cons c m ih =>
    obtain ⟨k, u⟩ := c
    obtain ⟨hlt, -, -, hm⟩ := Memory.wf_cons.1 h
    simp only [Memory.write]
    split
    next hab => split <;> simp_all [Memory.read]
    next hab =>
      split
      next hEq =>
        subst hEq
        split
        next hv => simp [Memory.read, hne]
        · simp [Memory.read, hne]
      next hak =>
        simp only [Memory.read]
        split
        · rfl
        · exact ih hm

/-- A launch's data memory is canonical. -/
theorem Memory.ofCells_wf (cells : List (Word × Word)) : (Memory.ofCells cells).wf := by
  suffices h : ∀ (l : List (Word × Word)) (m : Memory), m.wf →
      (l.foldl (fun m c => Memory.write m (toInteger c.1) c.2) m).wf from h cells [] Memory.wf_nil
  intro l
  induction l with
  | nil => exact fun m hm => hm
  | cons c l ih => exact fun m hm => ih _ (Memory.write_wf _ hm c.1.isLt)

end Sys2Proof.Machine
end

