-- ==== Sys2Proof/Laws/State.lean ====
section
/-! SUPPORT. One lemma per field per update, so that no later proof unfolds a record update. -/

namespace Sys2Proof.Machine

/-! ### `writeReg` -/
@[simp] theorem writeReg_pc (s : State) (r : RegId) (v : Int) : (s.writeReg r v).pc = s.pc := rfl
@[simp] theorem writeReg_program (s : State) (r : RegId) (v : Int) : (s.writeReg r v).program = s.program := rfl
@[simp] theorem writeReg_run (s : State) (r : RegId) (v : Int) : (s.writeReg r v).run = s.run := rfl
@[simp] theorem writeReg_mem (s : State) (r : RegId) (v : Int) : (s.writeReg r v).mem = s.mem := rfl
@[simp] theorem writeReg_trace (s : State) (r : RegId) (v : Int) : (s.writeReg r v).trace = s.trace := rfl
@[simp] theorem writeReg_instrTable (s : State) (r : RegId) (v : Int) :
    (s.writeReg r v).instrTable = s.instrTable := rfl

/-! ### `writeMem` -/
@[simp] theorem writeMem_regs (s : State) (a : Nat) (v : Word) : (s.writeMem a v).regs = s.regs := rfl
@[simp] theorem writeMem_pc (s : State) (a : Nat) (v : Word) : (s.writeMem a v).pc = s.pc := rfl
@[simp] theorem writeMem_program (s : State) (a : Nat) (v : Word) : (s.writeMem a v).program = s.program := rfl
@[simp] theorem writeMem_run (s : State) (a : Nat) (v : Word) : (s.writeMem a v).run = s.run := rfl
@[simp] theorem writeMem_mem (s : State) (a : Nat) (v : Word) : (s.writeMem a v).mem = s.mem.write a v := rfl
@[simp] theorem writeMem_trace (s : State) (a : Nat) (v : Word) : (s.writeMem a v).trace = s.trace := rfl
@[simp] theorem writeMem_instrTable (s : State) (a : Nat) (v : Word) :
    (s.writeMem a v).instrTable = s.instrTable := rfl

/-! ### `retire` -/
@[simp] theorem retire_regs (s : State) (npc : Nat) : (s.retire npc).regs = s.regs := rfl
@[simp] theorem retire_pc (s : State) (npc : Nat) : (s.retire npc).pc = npc := rfl
@[simp] theorem retire_program (s : State) (npc : Nat) : (s.retire npc).program = toBinary32 npc := rfl
@[simp] theorem retire_run (s : State) (npc : Nat) : (s.retire npc).run = s.run := rfl
@[simp] theorem retire_mem (s : State) (npc : Nat) : (s.retire npc).mem = s.mem := rfl
@[simp] theorem retire_trace (s : State) (npc : Nat) :
    (s.retire npc).trace = s.trace ++ [⟨toBinary32 npc, s.regs⟩] := rfl
@[simp] theorem retire_instrTable (s : State) (npc : Nat) : (s.retire npc).instrTable = s.instrTable := rfl

/-! ### `halt` -/
@[simp] theorem halt_regs (s : State) : s.halt.regs = s.regs := rfl
@[simp] theorem halt_pc (s : State) : s.halt.pc = s.pc := rfl
@[simp] theorem halt_program (s : State) : s.halt.program = s.program := rfl
@[simp] theorem halt_run (s : State) : s.halt.run = .halted := rfl
@[simp] theorem halt_mem (s : State) : s.halt.mem = s.mem := rfl
@[simp] theorem halt_trace (s : State) : s.halt.trace = s.trace := rfl
@[simp] theorem halt_instrTable (s : State) : s.halt.instrTable = s.instrTable := rfl

/-! ### Registers and sums -/

/-- A register read depends on the register file alone. -/
theorem reg_congr {s t : State} (h : t.regs = s.regs) (r : RegId) : t.reg r = s.reg r := by
  simp [State.reg, h]

@[simp] theorem reg_writeReg_same (s : State) (r : RegId) (v : Int) : (s.writeReg r v).reg r = toBinary32 v := by
  simp [State.reg, State.writeReg]

theorem reg_writeReg_other (s : State) {r q : RegId} (v : Int) (h : q ≠ r) : (s.writeReg r v).reg q = s.reg q := by
  have hne : r.val ≠ q.val := fun e => h (Fin.ext e.symm)
  simp [State.reg, State.writeReg, Vector.getElem_set_ne, hne]

@[simp] theorem reg_writeMem (s : State) (a : Nat) (v : Word) (r : RegId) : (s.writeMem a v).reg r = s.reg r := rfl
@[simp] theorem reg_retire (s : State) (npc : Nat) (r : RegId) : (s.retire npc).reg r = s.reg r := rfl
@[simp] theorem reg_halt (s : State) (r : RegId) : s.halt.reg r = s.reg r := rfl

@[simp] theorem lastPc_retire (s : State) (npc : Nat) : (s.retire npc).lastPc = s.lastPc := rfl
@[simp] theorem lastPc_halt (s : State) : s.halt.lastPc = s.lastPc := rfl
@[simp] theorem lastPc_writeReg (s : State) (r : RegId) (v : Int) : (s.writeReg r v).lastPc = s.lastPc := rfl
@[simp] theorem lastPc_writeMem (s : State) (a : Nat) (v : Word) : (s.writeMem a v).lastPc = s.lastPc := rfl

end Sys2Proof.Machine
end

