-- ==== Sys2Proof/Laws/Operands.lean ====
section
/-! SUPPORT. The primitives as numbers, and the bounds of the sums an instruction forms. -/

namespace Sys2Proof.Machine

@[simp] theorem toInteger_eq {n : Nat} (b : BitVec n) : toInteger b = b.toNat := rfl

/-- A natural number is stored modulo `2^32`. -/
@[simp] theorem toNat_toBinary32_nat (n : Nat) : (toBinary32 (n : Int)).toNat = n % 2 ^ 32 := by
  simp [toBinary32]

theorem toNat_toBinary32 (n : Int) : (toBinary32 n).toNat = (n % 2 ^ 32).toNat := by
  simp [toBinary32, BitVec.toNat_ofInt]

theorem readReg_eq (s : State) (r : RegId) : s.readReg r = (s.reg r).toNat := rfl

theorem readReg_lt (s : State) (r : RegId) : s.readReg r < 2 ^ 32 := (s.reg r).isLt

theorem extendImm_eq {n : Nat} (imm : BitVec n) : extendImm imm = (qext32 imm).toNat := rfl

theorem extendImm_lt {n : Nat} (imm : BitVec n) : extendImm imm < 2 ^ 32 := (qext32 imm).isLt

theorem baseOffset_eq (s : State) (rs1 : RegId) (imm12 : BitVec 12) :
    s.baseOffset rs1 imm12 = (s.reg rs1).toNat + (qext32 imm12).toNat := rfl

/-- A `jalr` target, and any effective address, is below `2^33` (`10_state.md` R26, `20_memory.md` R48). -/
theorem baseOffset_lt (s : State) (rs1 : RegId) (imm12 : BitVec 12) : s.baseOffset rs1 imm12 < 2 ^ 33 := by
  have h1 := readReg_lt s rs1
  have h2 := extendImm_lt imm12
  simp only [State.baseOffset]
  omega

theorem pcOffset_eq {n : Nat} (s : State) (imm : BitVec n) : s.pcOffset imm = s.pc + (qext32 imm).toNat := rfl

theorem pcOffset_lt {n : Nat} (s : State) (imm : BitVec n) : s.pcOffset imm < s.pc + 2 ^ 32 :=
  Nat.add_lt_add_left (extendImm_lt imm) _

theorem condEq_iff (a b : Nat) : condEq a b = true ↔ a = b := by simp [condEq]
theorem condNe_iff (a b : Nat) : condNe a b = true ↔ a ≠ b := by simp [condNe]
theorem condLt_iff (a b : Nat) : condLt a b = true ↔ a < b := by simp [condLt]
theorem condGe_iff (a b : Nat) : condGe a b = true ↔ b ≤ a := by simp [condGe]

end Sys2Proof.Machine
end

