-- ==== Sys2Proof/Laws/Exec.lean ====
section
/-! SUPPORT. One lemma per shared operation, and what an instruction can do at all. -/

namespace Sys2Proof.Machine

/-! ### The shared operations -/

/-- A retirement from a state that kept `s`'s run state, table and trace is an executed step from `s`. -/
theorem executed_retire {s u : State} (npc : Nat) (hrun : u.run = s.run) (htable : u.instrTable = s.instrTable)
    (htrace : u.trace = s.trace) : Executed s (u.retire npc) npc where
  pc := rfl
  program := toNat_toBinary32_nat npc
  trace := by rw [retire_trace, htrace]; rfl
  run := hrun
  table := htable

theorem executed_writeReg_retire (s : State) (rd : RegId) (v : Int) (npc : Nat) :
    Executed s ((s.writeReg rd v).retire npc) npc := executed_retire npc rfl rfl rfl

theorem executed_writeMem_retire (s : State) (a : Nat) (v : Word) (npc : Nat) :
    Executed s ((s.writeMem a v).retire npc) npc := executed_retire npc rfl rfl rfl

/-- A register write followed by a retirement changes that register only, to the value modulo `2^32`. -/
theorem writesOnlyReg_retire (s : State) (rd : RegId) (v : Int) (npc : Nat) :
    WritesOnlyReg s ((s.writeReg rd v).retire npc) rd (v % 2 ^ 32).toNat where
  written := by simp [toNat_toBinary32]
  others r h := by simpa using reg_writeReg_other s v h

/-- A memory write followed by a retirement changes that cell only. -/
theorem writesOnlyCell_retire {s : State} (a : Nat) (v : Word) (npc : Nat) (h : s.mem.wf) :
    WritesOnlyCell s ((s.writeMem a v).retire npc) a v where
  written := by simpa using Memory.read_write_same a v h
  others b hb := by simpa using Memory.read_write_other v h hb

theorem sameMem_writeReg_retire (s : State) (rd : RegId) (v : Int) (npc : Nat) :
    SameMem s ((s.writeReg rd v).retire npc) := fun _ => rfl

theorem sameMem_retire (s : State) (npc : Nat) : SameMem s (s.retire npc) := fun _ => rfl

theorem sameRegs_writeMem_retire (s : State) (a : Nat) (v : Word) (npc : Nat) :
    SameRegs s ((s.writeMem a v).retire npc) := fun _ => rfl

theorem sameRegs_retire (s : State) (npc : Nat) : SameRegs s (s.retire npc) := fun _ => rfl

/-- A data access ends in its state below `2^32`, and in `AddressOverflow` from there on. -/
theorem accessAt_below {ea : Nat} {t : State} (h : ea < 2 ^ 32) : accessAt ea t = .next t := if_pos h

theorem accessAt_above {ea : Nat} {t : State} (h : 2 ^ 32 ≤ ea) : accessAt ea t = .fault (.addressOverflow ea) :=
  if_neg (Nat.not_lt.2 h)

/-! ### What an instruction can do -/

/-- The next pc of an instruction that writes no memory is `pc + 4`, the pc plus an extended immediate, or a register
plus one. -/
def IsTarget (s : State) (npc : Nat) : Prop :=
  npc = s.nextPc ∨ (∃ (n : Nat) (imm : BitVec n), npc = s.pcOffset imm) ∨
    ∃ (rs1 : RegId) (imm12 : BitVec 12), npc = s.baseOffset rs1 imm12

/-- Every target is below `2^33` when the pc is below `2^32` (`10_state.md` R26). -/
theorem IsTarget.bound {s : State} {npc : Nat} (h : IsTarget s npc) (hpc : s.pc < 2 ^ 32) : npc < 2 ^ 33 := by
  rcases h with rfl | ⟨n, imm, rfl⟩ | ⟨rs1, imm, rfl⟩
  · simp only [State.nextPc]; omega
  · have := pcOffset_lt s imm; omega
  · exact baseOffset_lt s rs1 imm

/-- Everything `exec` can answer: the halt, a register write, nothing but a new pc, a store, or the overflow of a
data address. -/
theorem exec_cases (i : Instr) (s : State) :
    (i = .halt ∧ exec i s = .next s.halt) ∨
    (∃ rd v npc, IsTarget s npc ∧ exec i s = .next ((s.writeReg rd v).retire npc)) ∨
    (∃ npc, IsTarget s npc ∧ exec i s = .next (s.retire npc)) ∨
    (∃ rs1 rs2 imm12, i = .sw rs1 rs2 imm12 ∧ s.baseOffset rs1 imm12 < 2 ^ 32 ∧
      exec i s = .next ((s.writeMem (s.baseOffset rs1 imm12) (s.reg rs2)).retire s.nextPc)) ∨
    (∃ ea, dataAddress i s = some ea ∧ 2 ^ 32 ≤ ea ∧ exec i s = .fault (.addressOverflow ea)) := by
  cases i with
  | halt => exact .inl ⟨rfl, rfl⟩
  | add | sub | sll | slt | sltu | xor | srl | or | and =>
    exact .inr (.inl ⟨_, _, _, .inl rfl, rfl⟩)
  | addi | lui | auipc => exact .inr (.inl ⟨_, _, _, .inl rfl, rfl⟩)
  | jalr rd rs1 imm => exact .inr (.inl ⟨_, _, _, .inr (.inr ⟨rs1, imm, rfl⟩), rfl⟩)
  | jal rd imm => exact .inr (.inl ⟨_, _, _, .inr (.inl ⟨_, imm, rfl⟩), rfl⟩)
  | lw rd rs1 imm =>
    by_cases h : s.baseOffset rs1 imm < 2 ^ 32
    · exact .inr (.inl ⟨_, _, _, .inl rfl, accessAt_below h⟩)
    · exact .inr (.inr (.inr (.inr ⟨_, rfl, Nat.not_lt.1 h, accessAt_above (Nat.not_lt.1 h)⟩)))
  | sw rs1 rs2 imm =>
    by_cases h : s.baseOffset rs1 imm < 2 ^ 32
    · exact .inr (.inr (.inr (.inl ⟨rs1, rs2, imm, rfl, h, accessAt_below h⟩)))
    · exact .inr (.inr (.inr (.inr ⟨_, rfl, Nat.not_lt.1 h, accessAt_above (Nat.not_lt.1 h)⟩)))
  | beq rs1 rs2 imm | bne rs1 rs2 imm | blt rs1 rs2 imm | bge rs1 rs2 imm =>
    refine .inr (.inr (.inl ⟨_, ?_, rfl⟩))
    split
    · exact .inr (.inl ⟨_, imm, rfl⟩)
    · exact .inl rfl

end Sys2Proof.Machine
end

