-- ==== Sys2Proof/Laws/PerInstr.lean ====
section
/-! SUPPORT. Laws of every instruction, one lemma per constructor. -/

/-- An instruction's word is of the instruction's row of the opcode table (`30_encoding.md` R74, R85). -/
def Sys2Proof.Laws.RowPattern.Statement (i : Sys2Proof.Instr) : Prop :=
  Sys2Proof.encode i &&& i.row.mask = i.row.pattern

open Sys2Proof

theorem Sys2Proof.Laws.RowPattern.halt : Sys2Proof.Laws.RowPattern.Statement .halt :=
  and_maskAll _

theorem Sys2Proof.Laws.RowPattern.add (rd rs1 rs2 : RegId) :
    Sys2Proof.Laws.RowPattern.Statement (.add rd rs1 rs2) := by
  rw [Sys2Proof.Laws.RowPattern.Statement, Instr.row, encode, and_maskR, funct7Of_encodeR, funct3Of_encodeR, opcodeOf_encodeR]
  rfl

theorem Sys2Proof.Laws.RowPattern.sub (rd rs1 rs2 : RegId) :
    Sys2Proof.Laws.RowPattern.Statement (.sub rd rs1 rs2) := by
  rw [Sys2Proof.Laws.RowPattern.Statement, Instr.row, encode, and_maskR, funct7Of_encodeR, funct3Of_encodeR, opcodeOf_encodeR]
  rfl

theorem Sys2Proof.Laws.RowPattern.sll (rd rs1 rs2 : RegId) :
    Sys2Proof.Laws.RowPattern.Statement (.sll rd rs1 rs2) := by
  rw [Sys2Proof.Laws.RowPattern.Statement, Instr.row, encode, and_maskR, funct7Of_encodeR, funct3Of_encodeR, opcodeOf_encodeR]
  rfl

theorem Sys2Proof.Laws.RowPattern.slt (rd rs1 rs2 : RegId) :
    Sys2Proof.Laws.RowPattern.Statement (.slt rd rs1 rs2) := by
  rw [Sys2Proof.Laws.RowPattern.Statement, Instr.row, encode, and_maskR, funct7Of_encodeR, funct3Of_encodeR, opcodeOf_encodeR]
  rfl

theorem Sys2Proof.Laws.RowPattern.sltu (rd rs1 rs2 : RegId) :
    Sys2Proof.Laws.RowPattern.Statement (.sltu rd rs1 rs2) := by
  rw [Sys2Proof.Laws.RowPattern.Statement, Instr.row, encode, and_maskR, funct7Of_encodeR, funct3Of_encodeR, opcodeOf_encodeR]
  rfl

theorem Sys2Proof.Laws.RowPattern.xor (rd rs1 rs2 : RegId) :
    Sys2Proof.Laws.RowPattern.Statement (.xor rd rs1 rs2) := by
  rw [Sys2Proof.Laws.RowPattern.Statement, Instr.row, encode, and_maskR, funct7Of_encodeR, funct3Of_encodeR, opcodeOf_encodeR]
  rfl

theorem Sys2Proof.Laws.RowPattern.srl (rd rs1 rs2 : RegId) :
    Sys2Proof.Laws.RowPattern.Statement (.srl rd rs1 rs2) := by
  rw [Sys2Proof.Laws.RowPattern.Statement, Instr.row, encode, and_maskR, funct7Of_encodeR, funct3Of_encodeR, opcodeOf_encodeR]
  rfl

theorem Sys2Proof.Laws.RowPattern.or (rd rs1 rs2 : RegId) :
    Sys2Proof.Laws.RowPattern.Statement (.or rd rs1 rs2) := by
  rw [Sys2Proof.Laws.RowPattern.Statement, Instr.row, encode, and_maskR, funct7Of_encodeR, funct3Of_encodeR, opcodeOf_encodeR]
  rfl

theorem Sys2Proof.Laws.RowPattern.and (rd rs1 rs2 : RegId) :
    Sys2Proof.Laws.RowPattern.Statement (.and rd rs1 rs2) := by
  rw [Sys2Proof.Laws.RowPattern.Statement, Instr.row, encode, and_maskR, funct7Of_encodeR, funct3Of_encodeR, opcodeOf_encodeR]
  rfl

theorem Sys2Proof.Laws.RowPattern.lw (rd rs1 : RegId) (imm : BitVec 12) :
    Sys2Proof.Laws.RowPattern.Statement (.lw rd rs1 imm) := by
  rw [Sys2Proof.Laws.RowPattern.Statement, Instr.row, encode, and_maskF3, funct3Of_encodeI, opcodeOf_encodeI]
  rfl

theorem Sys2Proof.Laws.RowPattern.addi (rd rs1 : RegId) (imm : BitVec 12) :
    Sys2Proof.Laws.RowPattern.Statement (.addi rd rs1 imm) := by
  rw [Sys2Proof.Laws.RowPattern.Statement, Instr.row, encode, and_maskF3, funct3Of_encodeI, opcodeOf_encodeI]
  rfl

theorem Sys2Proof.Laws.RowPattern.jalr (rd rs1 : RegId) (imm : BitVec 12) :
    Sys2Proof.Laws.RowPattern.Statement (.jalr rd rs1 imm) := by
  rw [Sys2Proof.Laws.RowPattern.Statement, Instr.row, encode, and_maskF3, funct3Of_encodeI, opcodeOf_encodeI]
  rfl

theorem Sys2Proof.Laws.RowPattern.sw (rs1 rs2 : RegId) (imm : BitVec 12) :
    Sys2Proof.Laws.RowPattern.Statement (.sw rs1 rs2 imm) := by
  rw [Sys2Proof.Laws.RowPattern.Statement, Instr.row, encode, and_maskF3, funct3Of_encodeS, opcodeOf_encodeS]
  rfl

theorem Sys2Proof.Laws.RowPattern.beq (rs1 rs2 : RegId) (imm : BitVec 13) :
    Sys2Proof.Laws.RowPattern.Statement (.beq rs1 rs2 imm) := by
  rw [Sys2Proof.Laws.RowPattern.Statement, Instr.row, encode, and_maskF3, funct3Of_encodeB, opcodeOf_encodeB]
  rfl

theorem Sys2Proof.Laws.RowPattern.bne (rs1 rs2 : RegId) (imm : BitVec 13) :
    Sys2Proof.Laws.RowPattern.Statement (.bne rs1 rs2 imm) := by
  rw [Sys2Proof.Laws.RowPattern.Statement, Instr.row, encode, and_maskF3, funct3Of_encodeB, opcodeOf_encodeB]
  rfl

theorem Sys2Proof.Laws.RowPattern.blt (rs1 rs2 : RegId) (imm : BitVec 13) :
    Sys2Proof.Laws.RowPattern.Statement (.blt rs1 rs2 imm) := by
  rw [Sys2Proof.Laws.RowPattern.Statement, Instr.row, encode, and_maskF3, funct3Of_encodeB, opcodeOf_encodeB]
  rfl

theorem Sys2Proof.Laws.RowPattern.bge (rs1 rs2 : RegId) (imm : BitVec 13) :
    Sys2Proof.Laws.RowPattern.Statement (.bge rs1 rs2 imm) := by
  rw [Sys2Proof.Laws.RowPattern.Statement, Instr.row, encode, and_maskF3, funct3Of_encodeB, opcodeOf_encodeB]
  rfl

theorem Sys2Proof.Laws.RowPattern.lui (rd : RegId) (imm : BitVec 20) :
    Sys2Proof.Laws.RowPattern.Statement (.lui rd imm) := by
  rw [Sys2Proof.Laws.RowPattern.Statement, Instr.row, encode, and_maskOpc, opcodeOf_encodeU]
  rfl

theorem Sys2Proof.Laws.RowPattern.auipc (rd : RegId) (imm : BitVec 20) :
    Sys2Proof.Laws.RowPattern.Statement (.auipc rd imm) := by
  rw [Sys2Proof.Laws.RowPattern.Statement, Instr.row, encode, and_maskOpc, opcodeOf_encodeU]
  rfl

theorem Sys2Proof.Laws.RowPattern.jal (rd : RegId) (imm : BitVec 21) :
    Sys2Proof.Laws.RowPattern.Statement (.jal rd imm) := by
  rw [Sys2Proof.Laws.RowPattern.Statement, Instr.row, encode, and_maskOpc, opcodeOf_encodeJ]
  rfl
end

