-- ==== Sys2Proof/Laws/Step.lean ====
section
/-! SUPPORT. What one step can do, said once. -/

namespace Sys2Proof.Machine

/-- A key the fetch finds is a multiple of 4 inside the window. -/
theorem fetchWord_eq_some {it : List Word} {a : Nat} {w : Word} :
    fetchWord it a = some w ↔ a % 4 = 0 ∧ it[a / 4]? = some w := by
  simp only [fetchWord]
  split <;> simp_all

/-- A fetched pc does not exceed `LAST_PC`, and the table is not empty. -/
theorem fetchWord_inWindow {s : State} {w : Word} (h : fetchWord s.instrTable s.pc = some w) :
    ¬ s.lastPc < s.pc ∧ s.instrTable.isEmpty = false := by
  obtain ⟨h4, hw⟩ := fetchWord_eq_some.1 h
  obtain ⟨hlt, -⟩ := List.getElem?_eq_some_iff.1 hw
  refine ⟨?_, ?_⟩
  · simp only [State.lastPc]; omega
  · cases hit : s.instrTable with
    | nil => simp [hit] at hlt
    | cons => rfl

theorem step_halted {s : State} (h : s.run = .halted) : step s = .next s := by
  simp [step, loopPass, h]

theorem step_noTable {s : State} (hr : s.run = .running) (h : s.instrTable = []) :
    step s = .refused .noInstructionTable := by
  simp [step, loopPass, hr, h]

theorem step_bound {s : State} (hr : s.run = .running) (ht : s.instrTable ≠ []) (h : s.lastPc < s.pc) :
    step s = .next s.halt := by
  simp [step, loopPass, runAtPc, hr, ht, h]

theorem step_unmapped {s : State} (hr : s.run = .running) (ht : s.instrTable ≠ []) (h : ¬ s.lastPc < s.pc)
    (hf : fetchWord s.instrTable s.pc = none) : step s = .fault (.fetchUnmapped s.pc) := by
  simp [step, loopPass, runAtPc, hr, ht, h, hf]

/-- A step that fetches runs the word. -/
theorem step_fetched {s : State} {w : Word} (hr : s.run = .running) (hf : fetchWord s.instrTable s.pc = some w) :
    step s = runWord exec w s := by
  obtain ⟨hb, ht⟩ := fetchWord_inWindow hf
  simp [step, loopPass, runAtPc, hr, ht, hb, hf]

/-- Every way a step can end. -/
theorem step_cases (s : State) :
    (s.run = .halted ∧ step s = .next s) ∨
    (s.run = .running ∧ s.instrTable = [] ∧ step s = .refused .noInstructionTable) ∨
    (s.run = .running ∧ s.instrTable ≠ [] ∧ s.lastPc < s.pc ∧ step s = .next s.halt) ∨
    (s.run = .running ∧ s.instrTable ≠ [] ∧ ¬ s.lastPc < s.pc ∧ fetchWord s.instrTable s.pc = none ∧
      step s = .fault (.fetchUnmapped s.pc)) ∨
    (∃ w, s.run = .running ∧ ¬ s.lastPc < s.pc ∧ fetchWord s.instrTable s.pc = some w ∧
      step s = runWord exec w s) := by
  cases hr : s.run with
  | halted => exact .inl ⟨rfl, step_halted hr⟩
  | running =>
    by_cases ht : s.instrTable = []
    · exact .inr (.inl ⟨rfl, ht, step_noTable hr ht⟩)
    · by_cases hb : s.lastPc < s.pc
      · exact .inr (.inr (.inl ⟨rfl, ht, hb, step_bound hr ht hb⟩))
      · cases hf : fetchWord s.instrTable s.pc with
        | none => exact .inr (.inr (.inr (.inl ⟨rfl, ht, hb, rfl, step_unmapped hr ht hb hf⟩)))
        | some w => exact .inr (.inr (.inr (.inr ⟨w, rfl, hb, rfl, step_fetched hr hf⟩)))

/-- A word that decodes runs its instruction; any other is a no-op. -/
theorem runWord_cases (w : Word) (s : State) :
    (∃ i, decode w = .ok i ∧ runWord exec w s = exec i s) ∨
    (∃ e, decode w = .error e ∧ runWord exec w s = .next (s.retire s.nextPc)) := by
  cases h : decode w with
  | ok i => exact .inl ⟨i, rfl, by simp [runWord, h]⟩
  | error e => exact .inr ⟨e, rfl, by simp [runWord, h, State.noop]⟩

/-- Every next state of a step: the same, a halt at the bound, a no-op, or an instruction's (the sentinel's among
them). -/
theorem step_next_cases {s t : State} (h : step s = .next t) :
    (s.run = .halted ∧ t = s) ∨
    (s.run = .running ∧ s.instrTable ≠ [] ∧ s.lastPc < s.pc ∧ t = s.halt) ∨
    (∃ w, s.run = .running ∧ ¬ s.lastPc < s.pc ∧ fetchWord s.instrTable s.pc = some w ∧
      ((∃ e, decode w = .error e ∧ t = s.retire s.nextPc) ∨ (∃ i, decode w = .ok i ∧ exec i s = .next t))) := by
  rcases step_cases s with ⟨hr, e⟩ | ⟨-, -, e⟩ | ⟨hr, ht, hb, e⟩ | ⟨-, -, -, -, e⟩ | ⟨w, hr, hb, hf, e⟩ <;>
    rw [e] at h
  · exact .inl ⟨hr, by injection h with h; exact h.symm⟩
  · cases h
  · exact .inr (.inl ⟨hr, ht, hb, by injection h with h; exact h.symm⟩)
  · cases h
  · refine .inr (.inr ⟨w, hr, hb, hf, ?_⟩)
    rcases runWord_cases w s with ⟨i, hd, e⟩ | ⟨er, hd, e⟩ <;> rw [e] at h
    · exact .inr ⟨i, hd, h⟩
    · exact .inl ⟨er, hd, by injection h with h; exact h.symm⟩

/-! ### Runs -/

theorem run_zero (s : State) : core.run 0 s = .next s := rfl

/-- One step of any machine's run that answers a next state. -/
theorem coreRun_succ_next (M : Host.Core) {s u : M.State} (k : Nat) (h : M.step s = .next u) :
    M.run (k + 1) s = M.run k u := by
  simp only [Host.Core.run, h]

theorem coreRun_succ_fault (M : Host.Core) {s : M.State} {f : M.Fault} (k : Nat) (h : M.step s = .fault f) :
    M.run (k + 1) s = .fault f := by
  simp only [Host.Core.run, h]

theorem coreRun_succ_refused (M : Host.Core) {s : M.State} {r : M.Refusal} (k : Nat) (h : M.step s = .refused r) :
    M.run (k + 1) s = .refused r := by
  simp only [Host.Core.run, h]

theorem run_succ_next {s u : State} (k : Nat) (h : step s = .next u) : core.run (k + 1) s = core.run k u :=
  coreRun_succ_next core k h

theorem run_succ_fault {s : State} {f : Fault} (k : Nat) (h : step s = .fault f) : core.run (k + 1) s = .fault f :=
  coreRun_succ_fault core k h

theorem run_succ_refused {s : State} {r : Refusal} (k : Nat) (h : step s = .refused r) :
    core.run (k + 1) s = .refused r :=
  coreRun_succ_refused core k h

/-- A run of `k + 1` steps that ends in a state made a first step and then ran `k`. -/
theorem run_succ_inv {s t : State} {k : Nat} (h : core.run (k + 1) s = .next t) :
    ∃ u, step s = .next u ∧ core.run k u = .next t := by
  cases hs : step s with
  | next u => exact ⟨u, rfl, by rw [← run_succ_next k hs]; exact h⟩
  | fault f => rw [run_succ_fault k hs] at h; cases h
  | refused r => rw [run_succ_refused k hs] at h; cases h

end Sys2Proof.Machine
end

