-- ==== Sys2Proof/Tests/Slice0.lean ====
section
/-! SUPPORT. The model's own tests, each about one word or one step, and the witnesses that meet the hypotheses of the
statements.  Expected results are those of `spec/95_test_vectors.md` and of the rules' worked examples, except where a
comment says otherwise. -/

open Sys2Proof Sys2Proof.Machine

namespace Sys2Proof.Tests

/-! ### Well-formedness: each check refuses its ill-formed term (R65, R67, R75) -/

theorem test_wf_refuses_odd_beq : (Instr.beq 1 2 9#13).wf = false := by decide
theorem test_wf_refuses_odd_bne : (Instr.bne 1 2 1#13).wf = false := by decide
theorem test_wf_refuses_odd_blt : (Instr.blt 1 2 0x1FFF#13).wf = false := by decide
theorem test_wf_refuses_odd_bge : (Instr.bge 0 0 3#13).wf = false := by decide
theorem test_wf_refuses_odd_jal : (Instr.jal 1 0x1FFFFF#21).wf = false := by decide
theorem test_wf_refuses_sentinel_as_beq : (Instr.beq 0 0 0#13).wf = false := by decide
theorem test_wf_admits_other_zero_offset : (Instr.beq 1 1 0#13).wf = true := by decide

/-! ### Decoding: a word of every constructor, written field by field from the formats of R62 to R67 -/

theorem test_decode_halt : decode 0b00000000000000000000000001100011#32 = .ok .halt := by rfl
theorem test_decode_add : decode (0b0000000#7 ++ 3#5 ++ 2#5 ++ 0b000#3 ++ 1#5 ++ 0b0110011#7) = .ok (.add 1 2 3) := by rfl
theorem test_decode_sub : decode (0b0100000#7 ++ 3#5 ++ 2#5 ++ 0b000#3 ++ 1#5 ++ 0b0110011#7) = .ok (.sub 1 2 3) := by rfl
theorem test_decode_sll : decode (0b0000000#7 ++ 3#5 ++ 2#5 ++ 0b001#3 ++ 1#5 ++ 0b0110011#7) = .ok (.sll 1 2 3) := by rfl
theorem test_decode_slt : decode (0b0000000#7 ++ 3#5 ++ 2#5 ++ 0b010#3 ++ 1#5 ++ 0b0110011#7) = .ok (.slt 1 2 3) := by rfl
theorem test_decode_sltu : decode (0b0000000#7 ++ 3#5 ++ 2#5 ++ 0b011#3 ++ 1#5 ++ 0b0110011#7) = .ok (.sltu 1 2 3) := by rfl
theorem test_decode_xor : decode (0b0000000#7 ++ 3#5 ++ 2#5 ++ 0b100#3 ++ 1#5 ++ 0b0110011#7) = .ok (.xor 1 2 3) := by rfl
theorem test_decode_srl : decode (0b0000000#7 ++ 3#5 ++ 2#5 ++ 0b101#3 ++ 1#5 ++ 0b0110011#7) = .ok (.srl 1 2 3) := by rfl
theorem test_decode_or : decode (0b0000000#7 ++ 3#5 ++ 2#5 ++ 0b110#3 ++ 1#5 ++ 0b0110011#7) = .ok (.or 1 2 3) := by rfl
theorem test_decode_and : decode (0b0000000#7 ++ 31#5 ++ 0#5 ++ 0b111#3 ++ 16#5 ++ 0b0110011#7) = .ok (.and 16 0 31) := by rfl
theorem test_decode_lw : decode (0x800#12 ++ 2#5 ++ 0b010#3 ++ 1#5 ++ 0b0000011#7) = .ok (.lw 1 2 0x800#12) := by rfl
theorem test_decode_addi : decode (0xFFE#12 ++ 2#5 ++ 0b000#3 ++ 1#5 ++ 0b0010011#7) = .ok (.addi 1 2 0xFFE#12) := by rfl
theorem test_decode_jalr : decode (4#12 ++ 5#5 ++ 0b000#3 ++ 0#5 ++ 0b1100111#7) = .ok (.jalr 0 5 4#12) := by rfl
theorem test_decode_sw :
    decode (0b0111111#7 ++ 3#5 ++ 2#5 ++ 0b010#3 ++ 0b11101#5 ++ 0b0100011#7) = .ok (.sw 2 3 0b011111111101#12) := by rfl
theorem test_decode_beq :
    decode (0b1#1 ++ 0b010011#6 ++ 2#5 ++ 1#5 ++ 0b000#3 ++ 0b1010#4 ++ 0b0#1 ++ 0b1100011#7) =
      .ok (.beq 1 2 0b1001001110100#13) := by rfl
theorem test_decode_bne :
    decode (0b0#1 ++ 0b100000#6 ++ 2#5 ++ 1#5 ++ 0b001#3 ++ 0b0001#4 ++ 0b1#1 ++ 0b1100011#7) =
      .ok (.bne 1 2 0b0110000000010#13) := by rfl
theorem test_decode_blt : decode 0x0020C463#32 = .ok (.blt 1 2 8#13) := by rfl
theorem test_decode_bge : decode 0x0020D463#32 = .ok (.bge 1 2 8#13) := by rfl
theorem test_decode_lui : decode (0xABCDE#20 ++ 1#5 ++ 0b0110111#7) = .ok (.lui 1 0xABCDE#20) := by rfl
theorem test_decode_auipc : decode (0x12345#20 ++ 1#5 ++ 0b0010111#7) = .ok (.auipc 1 0x12345#20) := by rfl
theorem test_decode_jal :
    decode (0b0#1 ++ 0b1000000001#10 ++ 0b1#1 ++ 0b00000010#8 ++ 1#5 ++ 0b1101111#7) =
      .ok (.jal 1 0b000000010110000000010#21) := by rfl

/-! The words that are no instruction (R78 to R80). -/

theorem test_decode_sra_slot : decode 0x403150B3#32 = .error .unmatched := by rfl
theorem test_decode_mul_slot : decode 0x023100B3#32 = .error .unmatched := by rfl
theorem test_decode_lb_slot : decode 0x00810083#32 = .error .unmatched := by rfl
theorem test_decode_slti_slot : decode 0x00512093#32 = .error .unmatched := by rfl
theorem test_decode_jalr_funct3 : decode 0x000110E7#32 = .error .unmatched := by rfl
theorem test_decode_sb_slot : decode 0x00310423#32 = .error .unmatched := by rfl
theorem test_decode_bltu_slot : decode 0x0020E463#32 = .error .unmatched := by rfl
theorem test_decode_zero_word : decode 0x00000000#32 = .error .unrecognised := by rfl
theorem test_decode_ecall : decode 0x00000073#32 = .error .unrecognised := by rfl

/-! The encoder against the words of `95_test_vectors.md` part 2. -/

theorem test_encode_sub : encode (.sub 1 2 3) = 0x403100B3#32 := by decide
theorem test_encode_lw : encode (.lw 1 2 0x800#12) = 0x80012083#32 := by decide
theorem test_encode_sw : encode (.sw 2 3 0x7FF#12) = 0x7E312FA3#32 := by decide
theorem test_encode_beq : encode (.beq 1 2 0x1FFC#13) = 0xFE208EE3#32 := by decide
theorem test_encode_lui : encode (.lui 1 0x80000#20) = 0x800000B7#32 := by decide
theorem test_encode_jal : encode (.jal 1 0x1FFFFC#21) = 0xFFDFF0EF#32 := by decide

theorem test_decodeTableWord : decodeTableWord 32 0x003100B3 = some (.add 1 2 3) := by rfl
/-- A row of 8 bits: the bits above are 0. -/
theorem test_decodeTableWord_short : decodeTableWord 8 0x3100B3 = some (.add 1 0 0) := by rfl

/-- The rows of the table do not overlap, but for the sentinel's word, which `beq`'s row holds too (R75). -/
theorem test_rows_disjoint :
    opcodeTable.tail.Pairwise (fun r q => r.pattern &&& (r.mask &&& q.mask) ≠ q.pattern &&& (r.mask &&& q.mask)) := by
  decide

/-! ### Primitives (`95_test_vectors.md` part 1) -/

theorem test_toBinary32_wraps : toBinary32 (2 ^ 32 + 5) = 5#32 := by decide
theorem test_toBinary32_negative : toBinary32 (5 - 7) = 0xFFFFFFFE#32 := by decide
theorem test_qext32_12 : qext32 0x7FF#12 = 0x7FF#32 ∧ qext32 0x800#12 = 0x800FFFFF#32 := by decide
theorem test_qext32_13 : qext32 0x1FFC#13 = 0xFFE7FFFF#32 ∧ qext32 0x0FFE#13 = 0xFFE#32 := by decide
theorem test_qext32_20 : qext32 0x12345#20 = 0x12345#32 ∧ qext32 0xABCDE#20 = 0xABCDEFFF#32 := by decide
theorem test_qext32_21 : qext32 0x100000#21 = 0x800007FF#32 ∧ qext32 0x1FFFFE#21 = 0xFFFFF7FF#32 := by decide

/-! ### One step on a small state -/

/-- A launched machine at `pc` with the registers listed (the others zero), a data memory and a table. -/
def launched (pc : Nat) (xs : List (RegId × Word)) (mem : List (Word × Word)) (it : List Word) : State :=
  { State.launch (xs.foldl (fun v p => v.set p.1 p.2) Config.initRegs) mem 0#32 it with pc := pc }

/-- A machine whose next step runs the word `w`. -/
def withWord (pc : Nat) (xs : List (RegId × Word)) (mem : List (Word × Word)) (w : Nat) : State :=
  (launched pc xs mem []).withFetchWord 32 w

/-- The next state, where there is one. -/
def nextOf : Result → Option State
  | .next t => some t
  | .fault _ => none
  | .refused _ => none

/-- The fault, where there is one. -/
def faultOf : Result → Option Fault
  | .next _ => none
  | .fault f => some f
  | .refused _ => none

/-- Register `r` and the pc after one step. -/
def after (r : RegId) (s : State) : Option (Word × Nat) := (nextOf (step s)).map fun t => (t.reg r, t.pc)

theorem test_add : after 1 (withWord 0 [(2, 5#32), (3, 7#32)] [] 0x003100B3) = some (12#32, 4) := by decide
theorem test_add_same : after 1 (withWord 0 [(1, 0x80000001#32)] [] 0x001080B3) = some (2#32, 4) := by decide
theorem test_sub : after 1 (withWord 0 [(2, 5#32), (3, 7#32)] [] 0x403100B3) = some (0xFFFFFFFE#32, 4) := by decide
theorem test_sll : after 1 (withWord 0 [(2, 3#32), (3, 33#32)] [] 0x003110B3) = some (6#32, 4) := by decide
theorem test_sll_31 :
    after 1 (withWord 0 [(2, 0x80000001#32), (3, 0xFFFFFFFF#32)] [] 0x003110B3) = some (0x80000000#32, 4) := by decide
theorem test_slt : after 1 (withWord 0 [(2, 0xFFFFFFFF#32), (3, 1#32)] [] 0x003120B3) = some (0#32, 4) := by decide
theorem test_sltu : after 1 (withWord 0 [(2, 1#32), (3, 0xFFFFFFFF#32)] [] 0x003130B3) = some (1#32, 4) := by decide
theorem test_xor :
    after 1 (withWord 0 [(2, 0xFF00FF00#32), (3, 0x0FF00FF0#32)] [] 0x003140B3) = some (0xF0F0F0F0#32, 4) := by decide
theorem test_srl : after 1 (withWord 0 [(2, 0xF0000000#32), (3, 36#32)] [] 0x003150B3) = some (0x0F000000#32, 4) := by decide
theorem test_or :
    after 1 (withWord 0 [(2, 0xFF00FF00#32), (3, 0x0FF00FF0#32)] [] 0x003160B3) = some (0xFFF0FFF0#32, 4) := by decide
theorem test_and :
    after 1 (withWord 0 [(2, 0xFF00FF00#32), (3, 0x0FF00FF0#32)] [] 0x003170B3) = some (0x0F000F00#32, 4) := by decide
theorem test_addi : after 1 (withWord 0 [(2, 1#32)] [] 0x80010093) = some (0x80100000#32, 4) := by decide
theorem test_addi_x0 : after 0 (withWord 0 [] [] 0x00700013) = some (7#32, 4) := by decide
theorem test_lw : after 1 (withWord 0 [(1, 0x18#32)] [(0x18#32, 0xDEADBEEF#32)] 0x0000A083) = some (0xDEADBEEF#32, 4) := by
  decide
theorem test_lw_overflow :
    faultOf (step (withWord 0 [(2, 0x7FF00001#32)] [] 0x80012083)) = some (.addressOverflow 0x100000000) := by decide
theorem test_jalr : after 1 (withWord 12 [(2, 0x20#32)] [] 0x003100E7) = some (16#32, 35) := by decide
theorem test_jalr_same : after 1 (withWord 4 [(1, 4#32)] [] 0x004080E7) = some (8#32, 8) := by decide
/-- Program P9: a target of `2^32` or more is kept whole, and `program` shows its low 32 bits. -/
theorem test_jalr_unreduced :
    (nextOf (step (withWord 4 [(1, 0xFFFFFFFF#32)] [] 0x00508167))).map (fun t => (t.pc, t.program)) =
      some (0x100000004, 4#32) := by decide
theorem test_sw :
    (nextOf (step (withWord 0 [(2, 1#32), (3, 0xCAFEF00D#32)] [] 0x7E312FA3))).map State.mem =
      some [(0x800, 0xCAFEF00D#32)] := by decide
theorem test_sw_overflow :
    faultOf (step (withWord 0 [(2, 0xFFFFF801#32)] [] 0x7E312FA3)) = some (.addressOverflow 0x100000000) := by decide
theorem test_beq : after 1 (withWord 8 [(1, 3#32), (2, 3#32)] [] 0xFE208EE3) = some (3#32, 0xFFE80007) := by decide
theorem test_beq_not_taken : after 1 (withWord 8 [(1, 3#32), (2, 4#32)] [] 0x00208463) = some (3#32, 12) := by decide
theorem test_bne : after 1 (withWord 8 [(1, 3#32), (2, 4#32)] [] 0x00209463) = some (3#32, 16) := by decide
theorem test_blt : after 1 (withWord 8 [(1, 1#32), (2, 0x80000000#32)] [] 0x0020C463) = some (1#32, 16) := by decide
theorem test_blt_unsigned :
    after 1 (withWord 8 [(1, 0xFFFFFFFF#32), (2, 0#32)] [] 0x0020C463) = some (0xFFFFFFFF#32, 12) := by decide
theorem test_bge : after 1 (withWord 8 [(1, 0xFFFFFFFF#32), (2, 0#32)] [] 0x0020D463) = some (0xFFFFFFFF#32, 16) := by decide
theorem test_lui : after 1 (withWord 0x40 [] [] 0x123450B7) = some (0x12345#32, 0x44) := by decide
theorem test_auipc : after 1 (withWord 0x40 [] [] 0x12345097) = some (0x12345#32, 0x44) := by decide
theorem test_jal : after 1 (withWord 4 [] [] 0x001FF0EF) = some (8#32, 0xFF804) := by decide
theorem test_jal_x0 : after 0 (withWord 4 [] [] 0x0100006F) = some (8#32, 20) := by decide
theorem test_halt :
    (nextOf (step (withWord 8 [(0, 7#32)] [] 0x00000063))).map (fun t => (t.run, t.pc, t.trace)) =
      some (.halted, 8, []) := by decide
theorem test_noop :
    (nextOf (step (withWord 0 [(1, 0x55#32)] [] 0x403150B3))).map (fun t => (t.reg 1, t.pc, t.trace.length)) =
      some (0x55#32, 4, 1) := by decide
/-- Scenario S1: one trace entry, which shows the new pc and the new register. -/
theorem test_trace_entry :
    (nextOf (step (withWord 0 [(2, 5#32), (3, 7#32)] [] 0x003100B3))).map
      (fun t => t.trace.map fun e => (e.program, e.regs[1])) = some [(4#32, 12#32)] := by decide
theorem test_bound_before_alignment : (nextOf (step (launched 6 [] [] [0#32, 0#32]))).map State.run = some .halted := by decide
theorem test_fetch_unmapped : faultOf (step (launched 6 [] [] [0#32, 0#32, 0#32])) = some (.fetchUnmapped 6) := by decide
/-- The cells beside a stored one are untouched (R41), and a stored zero leaves no entry. -/
theorem test_cells_disjoint :
    let m := Memory.write [] 0x18 0xCAFEF00D#32
    m.read 0x18 = 0xCAFEF00D#32 ∧ m.read 0x19 = 0#32 ∧ m.read 0x17 = 0#32 ∧ m.write 0x18 0#32 = [] := by decide
/-- R161: the first register token of an entry stands after one space, identifier first. -/
theorem test_register_token : (regToken 1 12#32).take 7 = ['0', '0', '0', '0', '1', ':', '0'] := by decide
theorem test_hex8 : hex8 0x8010000F#32 = ['8', '0', '1', '0', '0', '0', '0', 'f'] := by decide

/-! ### Witnesses: a concrete state and operands that meet a statement's hypotheses, one for each clause -/

/-- `QuirkExtensionBits`, `QuirkExtensionNumber`: both clauses, at 1, 12, 31 and 32 bits. -/
theorem witness_QuirkExtension :
    ((0#1).getLsbD 0 = false ∧ (1#1).getLsbD 0 = true) ∧
    ((0x7FF#12).toNat < 2 ^ (12 - 1) ∧ 2 ^ (12 - 1) ≤ (0x800#12).toNat) ∧
    ((0x3FFFFFFF#31).getLsbD 30 = false ∧ 2 ^ (31 - 1) ≤ (0x40000000#31).toNat) ∧
    ((0x7FFFFFFF#32).getLsbD 31 = false ∧ (0x80000000#32).getLsbD 31 = true) := by decide

/-- `LoadWordResult`, `StoreWordResult`: the last address and the first that is none, over a canonical memory. -/
theorem witness_DataAddress :
    (launched 0 [(2, 0x7FF00000#32)] [(5#32, 6#32)] []).mem.wf ∧
    ((launched 0 [(2, 0x7FF00000#32)] [] []).reg 2).toNat + (qext32 0x800#12).toNat = 2 ^ 32 - 1 ∧
    ((launched 0 [(2, 0x7FF00001#32)] [] []).reg 2).toNat + (qext32 0x800#12).toNat = 2 ^ 32 := by
  refine ⟨Memory.ofCells_wf _, by decide, by decide⟩

/-- `SentinelHalts`. -/
theorem witness_SentinelHalts :
    (launched 4 [] [] [0#32, 0x63#32]).run = .running ∧
    fetchWord (launched 4 [] [] [0#32, 0x63#32]).instrTable 4 = some Config.haltWord := by decide

/-- `StepRunsDecodedInstruction`, `NoWordIsIllegal`. -/
theorem witness_StepRunsDecodedInstruction :
    (launched 0 [] [] [0x003100B3#32]).run = .running ∧
    fetchWord (launched 0 [] [] [0x003100B3#32]).instrTable 0 = some 0x003100B3#32 ∧
    decode 0x003100B3#32 = .ok (.add 1 2 3) := ⟨rfl, rfl, rfl⟩

/-- `UnmatchedWordIsNoop`: the `sra` slot. -/
theorem witness_UnmatchedWordIsNoop :
    (launched 0 [] [] [0x403150B3#32]).run = .running ∧
    fetchWord (launched 0 [] [] [0x403150B3#32]).instrTable 0 = some 0x403150B3#32 ∧
    (0x403150B3#32).extractLsb' 0 7 ∈ [Config.opcR, Config.opcLoad, Config.opcOpImm, Config.opcJalr,
      Config.opcStore, Config.opcBranch] ∧
    ∀ r ∈ opcodeTable, 0x403150B3#32 &&& r.mask ≠ r.pattern := by decide

/-- `UnrecognisedOpcodeIsNoop`: the all-ones word. -/
theorem witness_UnrecognisedOpcodeIsNoop :
    (launched 0 [] [] [0xFFFFFFFF#32]).run = .running ∧
    fetchWord (launched 0 [] [] [0xFFFFFFFF#32]).instrTable 0 = some 0xFFFFFFFF#32 ∧
    (0xFFFFFFFF#32).extractLsb' 0 7 ∉
      [Config.opcR, Config.opcLoad, Config.opcOpImm, Config.opcJalr, Config.opcStore, Config.opcBranch,
        Config.opcLui, Config.opcAuipc, Config.opcJal] := by decide

/-- `BoundStopsTheLoop`: one key past the window, and its last word, an instruction and a no-op. -/
theorem witness_BoundStopsTheLoop :
    ((launched 8 [] [] [0#32, 0#32]).run = .running ∧ (launched 8 [] [] [0#32, 0#32]).instrTable ≠ [] ∧ 4 * (2 - 1) < 8) ∧
    ((launched 4 [] [] [0#32, 0x13#32]).pc ≤ 4 * (2 - 1) ∧ 4 % 4 = 0 ∧ decode 0x13#32 = .ok (.addi 0 0 0#12)) ∧
    ((launched 4 [] [] [0#32, 0#32]).pc ≤ 4 * (2 - 1) ∧ decode 0#32 = .error .unrecognised) :=
  ⟨by decide, ⟨by decide, by decide, rfl⟩, by decide, rfl⟩

/-- `MisalignedFetchFaults`: the pc of program P6, and the last misaligned one below `LAST_PC`. -/
theorem witness_MisalignedFetchFaults :
    (launched 6 [] [] [0#32, 0#32, 0#32]).run = .running ∧ (launched 6 [] [] [0#32, 0#32, 0#32]).instrTable ≠ [] ∧
    6 ≤ 4 * (3 - 1) ∧ 6 % 4 ≠ 0 ∧ 7 ≤ 4 * (3 - 1) ∧ 7 % 4 ≠ 0 := by decide

/-- `StepEndsInItsEvent`: each of the five clauses. -/
theorem witness_StepEndsInItsEvent :
    (launched 4 [] [] [0#32]).stopEvent = some .haltBound ∧
    (launched 0 [] [] [0x63#32]).stopEvent = some .haltSentinel ∧
    (launched 2 [] [] [0#32, 0#32]).stopEvent = some (.fetchUnmapped 2) ∧
    (launched 0 [(2, 0x7FF00001#32)] [] [0x80012083#32]).stopEvent = some (.addressOverflow (2 ^ 32)) ∧
    (launched 0 [(2, 0x7FF00000#32)] [] [0x80012083#32]).stopEvent = none := by decide

/-- `HaltedIsAbsorbing`. -/
theorem witness_HaltedIsAbsorbing : (launched 0 [] [] [0#32]).halt.run = .halted := by decide

/-- `LaunchValues`, `LaunchMeetsInvariant`. -/
theorem witness_Launch :
    (([(8#32, 1#32), (4#32, 2#32)] : List (Word × Word)).map Prod.fst).Nodup ∧
    4 * ([0#32, 0#32].length - 1) < 2 ^ 32 := by decide

/-- `StepKeepsInvariant`, `RunExtendsTrace`: a state with the invariant whose step answers a next state. -/
theorem witness_StepKeepsInvariant :
    (launched 0 [(2, 5#32)] [(8#32, 1#32)] [0x003100B3#32]).Inv ∧
    ∃ t, step (launched 0 [(2, 5#32)] [(8#32, 1#32)] [0x003100B3#32]) = .next t :=
  ⟨⟨Memory.ofCells_wf _, by decide, by decide, rfl⟩, _, rfl⟩

/-- `OnlyJalrGoesBackwards`: the `jalr x0,0(x5)` of the vectors. -/
theorem witness_OnlyJalrGoesBackwards :
    ∃ t, step (withWord 24 [(5, 12#32)] [] 0x00028067) = .next t ∧ t.pc < (withWord 24 [(5, 12#32)] [] 0x00028067).pc :=
  ⟨_, rfl, by decide⟩

/-- `MisalignedPcNeedsTransfer`: by a `jalr`, by a taken branch and by a `jal`. -/
theorem witness_MisalignedPcNeedsTransfer :
    (∃ t, step (withWord 12 [(2, 0x20#32)] [] 0x003100E7) = .next t ∧ t.pc % 4 ≠ 0) ∧
    (∃ t, step (withWord 8 [] [] 0x7E208FE3) = .next t ∧ t.pc % 4 ≠ 0) ∧
    (∃ t, step (withWord 4 [] [] 0x7FFFF0EF) = .next t ∧ t.pc % 4 ≠ 0) :=
  ⟨⟨_, rfl, by decide⟩, ⟨_, rfl, by decide⟩, ⟨_, rfl, by decide⟩⟩

/-- `OnlyStoreWritesMemory`. -/
theorem witness_OnlyStoreWritesMemory :
    ∃ t, step (withWord 0 [(3, 1#32)] [] 0x00312423) = .next t ∧ t.mem ≠ (withWord 0 [(3, 1#32)] [] 0x00312423).mem :=
  ⟨_, rfl, by decide⟩

/-- `OnlyLoadReadsMemory`: an `add`. -/
theorem witness_OnlyLoadReadsMemory :
    (∀ w : Word, fetchWord (launched 0 [] [] [0x003100B3#32]).instrTable 0 = some w →
      ∀ (rd rs1 : RegId) (imm12 : BitVec 12), decode w ≠ .ok (.lw rd rs1 imm12)) ∧
    ∃ t, step (launched 0 [] [] [0x003100B3#32]) = .next t := by
  refine ⟨fun w hw rd rs1 imm12 h => ?_, _, rfl⟩
  have hw' : w = 0x003100B3#32 := (Option.some.inj hw).symm
  have hd : decode w = .ok (.add 1 2 3) := by rw [hw']; rfl
  rw [hd] at h
  cases h

/-- `ProgramSlotAndTraceAreNeverRead`. -/
theorem witness_ProgramSlotAndTraceAreNeverRead :
    ∃ t, step (launched 0 [] [] [0x003100B3#32]) = .next t ∧ t.run = .running := ⟨_, rfl, rfl⟩

/-- `ZeroOffsetBranchRepeats`: `beq x1,x1,0` of program P10, and each of the other three. -/
theorem witness_ZeroOffsetBranchRepeats :
    (fetchWord (launched 0 [] [] [0x00108063#32]).instrTable 0 = some 0x00108063#32 ∧
      decode 0x00108063#32 = .ok (.beq 1 1 0#13)) ∧
    (decode 0x00209063#32 = .ok (.bne 1 2 0#13) ∧ (launched 0 [(2, 1#32)] [] []).reg 1 ≠ (launched 0 [(2, 1#32)] [] []).reg 2) ∧
    (decode 0x0020C063#32 = .ok (.blt 1 2 0#13) ∧
      ((launched 0 [(2, 1#32)] [] []).reg 1).toNat < ((launched 0 [(2, 1#32)] [] []).reg 2).toNat) ∧
    (decode 0x0020D063#32 = .ok (.bge 1 2 0#13) ∧
      ((launched 0 [] [] []).reg 2).toNat ≤ ((launched 0 [] [] []).reg 1).toNat) :=
  ⟨⟨rfl, rfl⟩, ⟨rfl, by decide⟩, ⟨rfl, by decide⟩, rfl, by decide⟩

/-- `AlignedTablesNeverFault`: an `add`, a branch by 8 and a word that is no instruction. -/
theorem witness_AlignedTablesNeverFault :
    (launched 4 [] [] [0x003100B3#32, 0x00208463#32, 0#32]).pc % 4 = 0 ∧
    ∀ w ∈ (launched 4 [] [] [0x003100B3#32, 0x00208463#32, 0#32]).instrTable,
      ∀ i : Instr, decode w = .ok i → neverFaults i = true := by
  refine ⟨by decide, fun w hw i hi => ?_⟩
  have hw' : w ∈ [0x003100B3#32, 0x00208463#32, 0#32] := hw
  simp only [List.mem_cons, List.not_mem_nil, or_false] at hw'
  rcases hw' with rfl | rfl | rfl
  · rw [show decode 0x003100B3#32 = .ok (.add 1 2 3) from rfl] at hi; cases hi; rfl
  · rw [show decode 0x00208463#32 = .ok (.beq 1 2 8#13) from rfl] at hi; cases hi; decide
  · rw [show decode 0#32 = .error .unrecognised from rfl] at hi; cases hi

/-- `StepKeepsSafeTable`: the same state. -/
theorem witness_StepKeepsSafeTable :
    (launched 4 [] [] [0x003100B3#32, 0x00208463#32, 0#32]).SafeTable ∧
    (launched 4 [] [] [0x003100B3#32, 0x00208463#32, 0#32]).instrTable ≠ [] :=
  ⟨⟨witness_AlignedTablesNeverFault.1, witness_AlignedTablesNeverFault.2⟩, by decide⟩

/-- `StoreThenLoad`: `x[rs1] = 8, imm = 0` and `x[rs] = 0, imm = 8` address the same cell (R46). -/
theorem witness_StoreThenLoad :
    ((8 : Nat) < 2 ^ 32 ∧ ∀ c ∈ ([(4, 1#32), (12, 0#32)] : List (Nat × Word)), c.1 < 2 ^ 32 ∧ c.1 ≠ 8) ∧
    (launched 0 [(1, 8#32), (2, 9#32)] [] []).mem.wf ∧
    ∃ t, exec (.sw 1 2 0#12) (launched 0 [(1, 8#32), (2, 9#32)] [] []) = .next t ∧
      (t.reg 3).toNat + (qext32 8#12).toNat =
        ((launched 0 [(1, 8#32), (2, 9#32)] [] []).reg 1).toNat + (qext32 0#12).toNat :=
  ⟨by decide, Memory.ofCells_wf _, _, rfl, by decide⟩

/-- `CanonicalMemoryIsExtensional`: two ways to write one memory. -/
theorem witness_CanonicalMemoryIsExtensional :
    Memory.ofCells [(8#32, 1#32), (4#32, 2#32)] = Memory.ofCells [(4#32, 2#32), (6#32, 0#32), (8#32, 1#32)] ∧
    (Memory.ofCells [(8#32, 1#32), (4#32, 2#32)]).wf := ⟨by decide, Memory.ofCells_wf _⟩

/-- `DecodeOfEncode`, `EncodeOfDecode`: the largest offsets with the top bit clear. -/
theorem witness_DecodeOfEncode :
    (Instr.beq 1 2 0xFFE#13).wf = true ∧ (Instr.jal 1 0xFFFFE#21).wf = true ∧
    decode 0x7FFFF0EF#32 = .ok (.jal 1 0xFFFFE#21) := ⟨by decide, by decide, rfl⟩

/-- `DecoderFollowsTable`: a word of each clause. -/
theorem witness_DecoderFollowsTable :
    decode 0x00000063#32 = .ok .halt ∧ decode 0x0020A463#32 = .error .unmatched := ⟨rfl, rfl⟩

/-- `PlacedWordRuns`: from reset, and from a halted machine at a pc that is no key. -/
theorem witness_PlacedWordRuns :
    decodeTableWord 32 0x00500093 = some (.addi 1 0 5#12) ∧
    after 1 (State.reset.withFetchWord 32 0x00500093) = some (5#32, 4) ∧
    after 1 ((launched 6 [] [] [0#32]).halt.withFetchWord 32 0x00500093) = some (5#32, 4) := ⟨rfl, by decide, by decide⟩

/-- `TraceLineIsInjective`. -/
theorem witness_TraceLineIsInjective :
    (⟨4#32, Config.initRegs⟩ : TraceEntry).line = (⟨4#32, Config.initRegs⟩ : TraceEntry).line := rfl

end Sys2Proof.Tests
end

section
/-! Proofs of the statements about the primitives (`00_scope.md`) and the invariant: the invariant of reachable states,
the extension of immediates, the binary form of integers, and the address string. -/

namespace Sys2Proof.Machine

/-! ### The invariant of reachable states (R7) -/

/-- A retirement reaches the invariant from its memory, table and target alone: it appends the very entry the invariant
asks for (`46_step_loop_trace.md` R159, R160). -/
theorem inv_retire {u : State} {npc : Nat} (hmem : u.mem.wf) (htable : u.lastPc < 2 ^ 32)
    (hnpc : npc < 2 ^ 33) : (u.retire npc).Inv where
  mem_wf := hmem
  pc_bound := hnpc
  table_bound := htable
  trace_agrees := by simp [State.traceAgrees]

/-- A halt changes `run` only, which the invariant does not mention. -/
theorem State.Inv.halt {s : State} (h : s.Inv) : s.halt.Inv where
  mem_wf := h.mem_wf
  pc_bound := h.pc_bound
  table_bound := h.table_bound
  trace_agrees := h.trace_agrees

/-- An instruction runs only after the bound check, so its pc is below `2^32` (`46_step_loop_trace.md` R151). -/
theorem exec_keeps_inv {i : Instr} {s t : State} (h : s.Inv) (hpc : s.pc < 2 ^ 32) (he : exec i s = .next t) :
    t.Inv := by
  rcases exec_cases i s with ⟨-, e⟩ | ⟨rd, v, npc, hnpc, e⟩ | ⟨npc, hnpc, e⟩ | ⟨rs1, rs2, imm12, -, hea, e⟩ |
    ⟨ea, -, -, e⟩ <;> rw [he] at e <;> cases e
  · exact h.halt
  · exact inv_retire h.mem_wf h.table_bound (hnpc.bound hpc)
  · exact inv_retire h.mem_wf h.table_bound (hnpc.bound hpc)
  · exact inv_retire (Memory.write_wf _ h.mem_wf hea) h.table_bound (IsTarget.bound (.inl rfl) hpc)

/-- The bound check and `LAST_PC < 2^32` put the pc of an executed step below `2^32`, and every target of it is then
below `2^33` (`10_state.md` R26). -/
theorem step_keeps_inv {s t : State} (h : s.Inv) (hs : step s = .next t) : t.Inv := by
  rcases step_next_cases hs with ⟨-, rfl⟩ | ⟨-, -, -, rfl⟩ | ⟨w, -, hb, -, hw⟩
  · exact h
  · exact h.halt
  · have hpc : s.pc < 2 ^ 32 := (Nat.not_lt.1 hb).trans_lt h.table_bound
    rcases hw with ⟨e, -, rfl⟩ | ⟨i, -, he⟩
    · exact inv_retire h.mem_wf h.table_bound (IsTarget.bound (.inl rfl) hpc)
    · exact exec_keeps_inv h hpc he

/-- Settles O38, from what a step and an instruction can answer (`step_next_cases`, `exec_cases`). -/
theorem stepKeepsInvariant : Obligations.StepKeepsInvariant := fun _ _ => step_keeps_inv

/-- A launch meets the invariant when its table has `LAST_PC` below `2^32`. -/
theorem launch_inv (initX : Vector Word 32) (initMem : List (Word × Word)) (program : Word) {it : List Word}
    (htable : 4 * (it.length - 1) < 2 ^ 32) : (State.launch initX initMem program it).Inv where
  mem_wf := Memory.ofCells_wf initMem
  pc_bound := Nat.two_pow_pos 33
  table_bound := htable
  trace_agrees := rfl

/-- Settles O37. -/
theorem launchMeetsInvariant : Obligations.LaunchMeetsInvariant :=
  fun initX initMem program _ => launch_inv initX initMem program

/-! ### The extension of a field (R13 to R15) -/

theorem qext32_of_msb_false {n : Nat} {b : BitVec n} (h : b.msb = false) : qext32 b = b.setWidth 32 := by
  simp [qext32, h]

theorem qext32_of_msb_true {n : Nat} {b : BitVec n} (h : b.msb = true) :
    qext32 b = (b ++ BitVec.allOnes (32 - n)).setWidth 32 := by
  simp [qext32, h]

/-- Settles O2, bit by bit from the two branches of the extension (R13). -/
theorem quirkExtensionBits : Obligations.QuirkExtensionBits := by
  intro n b _ _
  rw [← BitVec.msb_eq_getLsbD_last]
  refine ⟨fun hmsb i hi => ?_, fun hmsb i hi => ?_⟩
  · have hlt : b.getLsbD i = true → i < n := BitVec.lt_of_getLsbD
    simpa [qext32_of_msb_false hmsb, hi] using hlt
  · rw [qext32_of_msb_true hmsb, BitVec.getLsbD_setWidth, BitVec.getLsbD_append, BitVec.getLsbD_allOnes]
    by_cases hk : i < 32 - n <;> simp [hi, hk]

theorem toNat_qext32_of_msb_false {n : Nat} {b : BitVec n} (hn : n ≤ 32) (h : b.msb = false) :
    (qext32 b).toNat = b.toNat := by
  rw [qext32_of_msb_false h, BitVec.toNat_setWidth_of_le hn]

theorem toNat_qext32_of_msb_true {n : Nat} {b : BitVec n} (hn : n ≤ 32) (h : b.msb = true) :
    (qext32 b).toNat = b.toNat * 2 ^ (32 - n) + (2 ^ (32 - n) - 1) := by
  have hlow : 2 ^ (32 - n) - 1 < 2 ^ (32 - n) := Nat.sub_one_lt (by simp)
  rw [qext32_of_msb_true h, BitVec.toNat_setWidth_of_le (by omega), BitVec.toNat_append, BitVec.toNat_allOnes,
    ← Nat.shiftLeft_add_eq_or_of_lt hlow, Nat.shiftLeft_eq]

/-- Two's-complement extension puts ones ABOVE the field, where the hardware puts them below. -/
theorem toNat_signExtend32_of_msb_true {n : Nat} {b : BitVec n} (hn : n ≤ 32) (h : b.msb = true) :
    (b.signExtend 32).toNat = b.toNat + 2 ^ n * (2 ^ (32 - n) - 1) := by
  rw [BitVec.toNat_signExtend, if_pos h, BitVec.toNat_setWidth_of_le hn, Nat.mul_sub_one, ← Nat.pow_add,
    Nat.add_sub_cancel' hn]

theorem eq_allOnes_iff {n : Nat} (b : BitVec n) : b = BitVec.allOnes n ↔ b.toNat + 1 = 2 ^ n := by
  have := Nat.two_pow_pos n
  rw [← BitVec.toNat_inj, BitVec.toNat_allOnes]
  omega

/-- Shifted up over ones and sign extended, a field is the same number exactly when it is all ones: the two numbers
differ by `(v + 1 - 2^n) * (2^(32-n) - 1)`. -/
theorem qext32_eq_signExtend_iff {n : Nat} {b : BitVec n} (hn : n < 32) (h : b.msb = true) :
    qext32 b = b.signExtend 32 ↔ b = BitVec.allOnes n := by
  have hpos : 0 < 2 ^ (32 - n) - 1 := Nat.sub_pos_of_lt (Nat.one_lt_two_pow (by omega))
  have hsplit : b.toNat * 2 ^ (32 - n) = b.toNat * (2 ^ (32 - n) - 1) + b.toNat := by
    rw [Nat.mul_sub_one, Nat.sub_add_cancel (Nat.le_mul_of_pos_right _ (by simp))]
  calc qext32 b = b.signExtend 32
      ↔ (b.toNat + 1) * (2 ^ (32 - n) - 1) = 2 ^ n * (2 ^ (32 - n) - 1) := by
        rw [← BitVec.toNat_inj, toNat_qext32_of_msb_true hn.le h, toNat_signExtend32_of_msb_true hn.le h, hsplit,
          Nat.add_one_mul]
        omega
    _ ↔ b = BitVec.allOnes n := by rw [Nat.mul_left_inj hpos.ne', eq_allOnes_iff]

theorem le_toNat_qext32_of_msb_true {n : Nat} {b : BitVec n} (h1 : 1 ≤ n) (hn : n ≤ 32) (h : b.msb = true) :
    2 ^ 31 ≤ (qext32 b).toNat := by
  have hb : 2 ^ (n - 1) ≤ b.toNat := by simpa [BitVec.msb_eq_decide] using h
  calc 2 ^ 31 = 2 ^ (n - 1) * 2 ^ (32 - n) := by rw [← Nat.pow_add, show n - 1 + (32 - n) = 31 by omega]
    _ ≤ b.toNat * 2 ^ (32 - n) := Nat.mul_le_mul_right _ hb
    _ ≤ (qext32 b).toNat := toNat_qext32_of_msb_true hn h ▸ Nat.le_add_right _ _

/-- Settles O4: the two ranges of the value are the two values of the top bit. -/
theorem quirkExtensionNumber : Obligations.QuirkExtensionNumber := by
  intro n b h1 hn
  refine ⟨fun hlt => ?_, fun hle => ?_⟩
  · have hmsb : b.msb = false := by simpa [BitVec.msb_eq_decide] using hlt
    exact toNat_qext32_of_msb_false hn hmsb
  · have hmsb : b.msb = true := by simpa [BitVec.msb_eq_decide] using hle
    exact ⟨toNat_qext32_of_msb_true hn hmsb, le_toNat_qext32_of_msb_true h1 hn hmsb,
      fun hlt => qext32_eq_signExtend_iff hlt hmsb⟩

/-- R14: at 32 bits both branches add no digit. -/
theorem qext32_word (b : Word) : qext32 b = b := by
  apply BitVec.eq_of_toNat_eq
  cases hmsb : b.msb with
  | false => exact toNat_qext32_of_msb_false le_rfl hmsb
  | true => simpa using toNat_qext32_of_msb_true le_rfl hmsb

/-- Settles O3: an extended field has 32 bits. -/
theorem quirkExtensionIdempotent : Obligations.QuirkExtensionIdempotent :=
  ⟨qext32_word, fun _ b _ => qext32_word (qext32 b)⟩

/-! ### Integers and their 32 bits (R12) -/

/-- Settles O1. -/
theorem binaryIntegerRoundTrip : Obligations.BinaryIntegerRoundTrip := by
  refine ⟨fun n => ?_, fun b => ?_⟩
  · rw [toInteger_eq, toNat_toBinary32]
    omega
  · apply BitVec.eq_of_toNat_eq
    rw [toInteger_eq, toNat_toBinary32_nat, Nat.mod_eq_of_lt b.isLt]

/-! ### The address string (R17) -/

/-- Hexadecimal digit `d` of an address, the most significant being digit 0. -/
def nibble (a : Word) (d : Nat) : BitVec 4 := a.extractLsb' (28 - 4 * d) 4

/-- The address whose hexadecimal digits are `f 0` to `f 7`, the most significant first. -/
def ofNibbles (f : Nat → BitVec 4) : Word := BitVec.ofFnLE fun i : Fin 32 => (f (7 - i / 4)).getLsbD (i % 4)

theorem hex8_eq (a : Word) : hex8 a = (List.range 8).map fun d => hexDigit (nibble a d) := rfl

theorem length_hex8 (a : Word) : (hex8 a).length = 8 := by simp [hex8_eq]

theorem getElem?_hex8 (a : Word) {d : Nat} (hd : d < 8) : (hex8 a)[d]? = some (hexDigit (nibble a d)) := by
  simp [hex8_eq, hd]

theorem toNat_nibble (a : Word) {d : Nat} (hd : d < 8) : (nibble a d).toNat = a.toNat / 16 ^ (7 - d) % 16 := by
  have hpow : 2 ^ (28 - 4 * d) = 16 ^ (7 - d) := by rw [show 28 - 4 * d = 4 * (7 - d) by omega, Nat.pow_mul]
  rw [nibble, BitVec.extractLsb'_toNat, Nat.shiftRight_eq_div_pow, hpow]

theorem getLsbD_eq_nibble (a : Word) {i : Nat} (hi : i < 32) :
    a.getLsbD i = (nibble a (7 - i / 4)).getLsbD (i % 4) := by
  have hpos : 28 - 4 * (7 - i / 4) + i % 4 = i := by omega
  simp [nibble, hpos, Nat.mod_lt]

theorem nibble_ofNibbles (f : Nat → BitVec 4) {d : Nat} (hd : d < 8) : nibble (ofNibbles f) d = f d := by
  apply BitVec.eq_of_getLsbD_eq
  intro j hj
  have hi : 28 - 4 * d + j < 32 := by omega
  have hdig : 7 - (28 - 4 * d + j) / 4 = d := by omega
  have hbit : (28 - 4 * d + j) % 4 = j := by omega
  simp [nibble, ofNibbles, hi, hj, hdig, hbit]

theorem hexDigit_eq_getElem? (d : BitVec 4) : hexDigits[d.toNat]? = some (hexDigit d) := by
  rw [hexDigit, List.getD_eq_getElem?_getD, List.getElem?_eq_getElem d.isLt, Option.getD_some]

/-- The sixteen digits are distinct: a finite check over the 4-bit values. -/
theorem hexDigit_injective : Function.Injective hexDigit := by decide

theorem exists_hexDigit {c : Char} (h : c ∈ hexDigits) : ∃ d, hexDigit d = c := by
  obtain ⟨k, hk, rfl⟩ := List.getElem_of_mem h
  exact ⟨⟨k, hk⟩, List.getElem_eq_getD _ |>.symm⟩

/-- The string fixes the digits, and the digits fix every bit. -/
theorem hex8_injective : Function.Injective hex8 := by
  intro a b h
  have hnibble : ∀ d < 8, nibble a d = nibble b d := fun d hd =>
    hexDigit_injective (Option.some.inj (by rw [← getElem?_hex8 a hd, ← getElem?_hex8 b hd, h]))
  apply BitVec.eq_of_getLsbD_eq
  intro i hi
  rw [getLsbD_eq_nibble a hi, getLsbD_eq_nibble b hi, hnibble _ (by omega)]

/-- Every string of 8 digits is an address's: each character is the digit of a 4-bit value, and the address is put
together from these. -/
theorem exists_hex8_eq {cs : List Char} (hlen : cs.length = 8) (hcs : ∀ c ∈ cs, c ∈ hexDigits) :
    ∃ a, hex8 a = cs := by
  have hdigit : ∀ (d : Nat) (hd : d < 8), ∃ x, hexDigit x = cs[d] := fun d hd =>
    exists_hexDigit (hcs _ (List.getElem_mem _))
  choose! f hf using hdigit
  refine ⟨ofNibbles f, List.ext_getElem (by rw [length_hex8, hlen]) fun d hd _ => ?_⟩
  rw [length_hex8] at hd
  rw [List.getElem_eq_iff, getElem?_hex8 _ hd, nibble_ofNibbles f hd, hf d hd]

theorem getElem?_hex8_eq_digit (a : Word) {d : Nat} (hd : d < 8) :
    (hex8 a)[d]? = hexDigits[a.toNat / 16 ^ (7 - d) % 16]? := by
  rw [getElem?_hex8 a hd, ← hexDigit_eq_getElem?, toNat_nibble a hd]

/-- Settles O57. -/
theorem addressStringBijection : Obligations.AddressStringBijection :=
  ⟨fun a => ⟨length_hex8 a, fun _ => getElem?_hex8_eq_digit a⟩, fun _ _ h => hex8_injective h,
    fun _ => exists_hex8_eq⟩

end Sys2Proof.Machine
end

section
/-! Proofs of the statements about the state (`10_state.md`): reset and launch, HALTED, the trace of a run, and which
part of the state a step writes and reads. -/

namespace Sys2Proof.Machine

/-! ### HALTED (R29) -/

/-- A run from HALTED stays where it is. -/
theorem run_halted {s : State} (h : s.run = .halted) (k : Nat) : core.run k s = .next s := by
  induction k with
  | zero => exact run_zero s
  | succ k ih => rw [run_succ_next k (step_halted h), ih]

/-- Settles O33. -/
theorem haltedIsAbsorbing : Obligations.HaltedIsAbsorbing := fun k _ h => run_halted h k

/-! ### Launch and reset (R35, R43) -/

/-- The data memory after a list of cells has been written in order, as a launch does. -/
def Memory.writeCells (m : Memory) (cells : List (Word × Word)) : Memory :=
  cells.foldl (fun m c => m.write c.1.toNat c.2) m

theorem Memory.ofCells_eq_writeCells (cells : List (Word × Word)) :
    Memory.ofCells cells = Memory.writeCells [] cells := rfl

@[simp] theorem Memory.writeCells_nil (m : Memory) : m.writeCells [] = m := rfl

@[simp] theorem Memory.writeCells_cons (m : Memory) (c : Word × Word) (cells : List (Word × Word)) :
    m.writeCells (c :: cells) = (m.write c.1.toNat c.2).writeCells cells := rfl

/-- A key that is none of the written cells' reads as before. -/
theorem Memory.read_writeCells_absent {m : Memory} {cells : List (Word × Word)} {a : Nat} (hm : m.wf)
    (h : ∀ c ∈ cells, c.1.toNat ≠ a) : (m.writeCells cells).read a = m.read a := by
  induction cells generalizing m with
  | nil => rfl
  | cons c cells ih =>
    obtain ⟨hc, hcells⟩ := List.forall_mem_cons.1 h
    rw [writeCells_cons, ih (write_wf c.2 hm c.1.isLt) hcells, read_write_other c.2 hm hc.symm]

/-- With no key twice, a written cell keeps its value: the later writes are to other keys. -/
theorem Memory.read_writeCells_mem {m : Memory} {cells : List (Word × Word)} {c : Word × Word} (hm : m.wf)
    (hnodup : (cells.map Prod.fst).Nodup) (hc : c ∈ cells) : (m.writeCells cells).read c.1.toNat = c.2 := by
  induction cells generalizing m with
  | nil => cases hc
  | cons d cells ih =>
    obtain ⟨hd, hnodup⟩ := List.nodup_cons.1 hnodup
    rw [writeCells_cons]
    have hwf : (m.write d.1.toNat d.2).wf := write_wf d.2 hm d.1.isLt
    rcases List.mem_cons.1 hc with rfl | hc
    · have hne : ∀ e ∈ cells, e.1.toNat ≠ c.1.toNat := fun e he heq =>
        hd (BitVec.eq_of_toNat_eq heq ▸ List.mem_map_of_mem he)
      rw [read_writeCells_absent hwf hne, read_write_same c.1.toNat c.2 hm]
    · exact ih hwf hnodup hc

/-- Settles O35: the cells are read back from the writes that made the memory; the other fields are the arguments. -/
theorem launchValues : Obligations.LaunchValues := fun _ _ _ _ hnodup =>
  ⟨rfl, rfl, rfl, rfl, fun _ => rfl, fun _ => Memory.read_writeCells_mem Memory.wf_nil hnodup,
    fun _ => Memory.read_writeCells_absent Memory.wf_nil⟩

/-- Reset is the launch with every parameter at its default and no table (R191). -/
theorem reset_eq_launch : State.reset = State.launch Config.initRegs [] Config.initProgram [] := rfl

@[simp] theorem reg_reset (r : RegId) : State.reset.reg r = 0#32 := by
  simp [State.reg, State.reset, Config.initRegs]

/-- Settles O34. -/
theorem resetValues : Obligations.ResetValues :=
  ⟨rfl, rfl, rfl, reg_reset, rfl, fun _ => rfl, rfl⟩

/-- Settles O36: reset is a launch. -/
theorem resetMeetsInvariant : Obligations.ResetMeetsInvariant := by
  rw [Obligations.ResetMeetsInvariant, reset_eq_launch]
  exact launch_inv Config.initRegs [] Config.initProgram (Nat.two_pow_pos 32)

/-! ### A step halts or is an executed one (R150) -/

/-- An instruction that answers a next state halts or is an executed step. -/
theorem exec_next_halt_or_executed {i : Instr} {s t : State} (h : exec i s = .next t) :
    t = s.halt ∨ Executed s t t.pc := by
  rcases exec_cases i s with ⟨-, e⟩ | ⟨rd, v, npc, -, e⟩ | ⟨npc, -, e⟩ | ⟨rs1, rs2, imm, -, -, e⟩ | ⟨ea, -, -, e⟩ <;>
    rw [h] at e <;> cases e
  · exact .inl rfl
  · exact .inr (executed_writeReg_retire s rd v npc)
  · exact .inr (executed_retire npc rfl rfl rfl)
  · exact .inr (executed_writeMem_retire s _ _ _)

/-- Halting a halted machine changes nothing. -/
theorem halt_of_halted {s : State} (h : s.run = .halted) : s.halt = s := by
  rw [State.halt, ← h]

/-- A step that answers a next state halts, at most changing `run`, or is an executed step. -/
theorem step_next_halt_or_executed {s t : State} (h : step s = .next t) : t = s.halt ∨ Executed s t t.pc := by
  rcases step_next_cases h with ⟨hr, rfl⟩ | ⟨-, -, -, rfl⟩ | ⟨w, -, -, -, ⟨e, -, rfl⟩ | ⟨i, -, he⟩⟩
  · exact .inl (halt_of_halted hr).symm
  · exact .inl rfl
  · exact .inr (executed_retire _ rfl rfl rfl)
  · exact exec_next_halt_or_executed he

/-! ### The trace of a run (R30, R51, R160) -/

/-- What `k` steps from `s` leave of the trace and the table at `t`. -/
structure ExtendsTrace (k : Nat) (s t : State) : Prop where
  trace_grows : s.trace <+: t.trace
  length_le : t.trace.length ≤ s.trace.length + k
  table : t.instrTable = s.instrTable
  length_running : t.run = .running → t.trace.length = s.trace.length + k

theorem ExtendsTrace.refl (s : State) : ExtendsTrace 0 s s := ⟨List.prefix_rfl, le_rfl, rfl, fun _ => rfl⟩

theorem ExtendsTrace.halt (k : Nat) (s : State) : ExtendsTrace k s s.halt :=
  ⟨List.prefix_rfl, Nat.le_add_right _ k, rfl, nofun⟩

/-- An executed step before a run adds the one entry it appends. -/
theorem ExtendsTrace.of_executed {k npc : Nat} {s u t : State} (hu : Executed s u npc) (ht : ExtendsTrace k u t) :
    ExtendsTrace (k + 1) s t := by
  have hlen : u.trace.length = s.trace.length + 1 := by rw [hu.trace, List.length_append]; rfl
  obtain ⟨hgrows, hle, htable, hrunning⟩ := ht
  refine ⟨?_, by omega, htable.trans hu.table, fun hr => ?_⟩
  · exact (hu.trace ▸ List.prefix_append s.trace _).trans hgrows
  · have := hrunning hr
    omega

theorem run_extendsTrace {k : Nat} {s t : State} (h : core.run k s = .next t) : ExtendsTrace k s t := by
  induction k generalizing s with
  | zero => cases h; exact .refl _
  | succ k ih =>
    obtain ⟨u, hu, hrun⟩ := run_succ_inv h
    rcases step_next_halt_or_executed hu with rfl | hexec
    · rw [run_halted rfl] at hrun
      cases hrun
      exact .halt _ s
    · exact .of_executed hexec (ih hrun)

/-- Settles O39. -/
theorem runExtendsTrace : Obligations.RunExtendsTrace := fun _ _ _ h =>
  have ⟨hgrows, hle, htable, hrunning⟩ := run_extendsTrace h
  ⟨hgrows, hle, htable, hrunning⟩

/-! ### Which instruction changes the pc otherwise than by 4 (R28, R175) -/

theorem accessAt_eq_next {ea : Nat} {t u : State} : accessAt ea t = .next u ↔ ea < 2 ^ 32 ∧ t = u := by
  by_cases h : ea < 2 ^ 32
  · simp only [accessAt_below h, Host.Outcome.next.injEq, h, true_and]
  · simp only [accessAt_above (Nat.not_lt.1 h), h, false_and, reduceCtorEq]

/-- The pc after an instruction: where it was, 4 further, or what a jump or a branch computes. -/
theorem exec_next_pc {i : Instr} {s t : State} (h : exec i s = .next t) :
    t.pc = s.pc ∨ t.pc = s.pc + 4 ∨
    (∃ rd rs1 imm12, i = .jalr rd rs1 imm12) ∨
    (∃ rs1 rs2 imm13, (i = .beq rs1 rs2 imm13 ∨ i = .bne rs1 rs2 imm13 ∨ i = .blt rs1 rs2 imm13 ∨
      i = .bge rs1 rs2 imm13) ∧ t.pc = s.pc + (qext32 imm13).toNat) ∨
    (∃ rd imm21, i = .jal rd imm21 ∧ t.pc = s.pc + (qext32 imm21).toNat) := by
  cases i with
  | halt => cases h; exact .inl rfl
  | add | sub | sll | slt | sltu | xor | srl | or | and | addi | lui | auipc => cases h; exact .inr (.inl rfl)
  | lw | sw =>
    obtain ⟨-, rfl⟩ := accessAt_eq_next.1 h
    exact .inr (.inl rfl)
  | jalr rd rs1 imm => exact .inr (.inr (.inl ⟨rd, rs1, imm, rfl⟩))
  | jal rd imm => cases h; exact .inr (.inr (.inr (.inr ⟨rd, imm, rfl, rfl⟩)))
  | beq rs1 rs2 imm | bne rs1 rs2 imm | blt rs1 rs2 imm | bge rs1 rs2 imm =>
    cases h
    simp only [retire_pc]
    split
    · exact .inr (.inr (.inr (.inl ⟨rs1, rs2, imm, by simp, rfl⟩)))
    · exact .inr (.inl rfl)

/-- Settles O41: a pc that stayed or went 4 further is still aligned. -/
theorem misalignedPcNeedsTransfer : Obligations.MisalignedPcNeedsTransfer := by
  intro s t h hs ht
  rcases step_next_cases h with ⟨-, rfl⟩ | ⟨-, -, -, rfl⟩ | ⟨w, -, -, hf, ⟨e, -, rfl⟩ | ⟨i, hd, he⟩⟩
  · exact absurd hs ht
  · exact absurd hs ht
  · have : (s.pc + 4) % 4 ≠ 0 := ht
    omega
  · refine ⟨w, i, hf, hd, ?_⟩
    rcases exec_next_pc he with hpc | hpc | hjalr | ⟨rs1, rs2, imm, hi, hpc⟩ | ⟨rd, imm, hi, hpc⟩
    · omega
    · omega
    · exact .inl hjalr
    · exact .inr (.inl ⟨rs1, rs2, imm, hi, by omega⟩)
    · exact .inr (.inr ⟨rd, imm, hi, by omega⟩)

/-! ### The data memory is written by `sw` only and read by `lw` only (R20, R40) -/

/-- An instruction that changes the data memory is an `sw`. -/
theorem exec_mem_ne {i : Instr} {s t : State} (h : exec i s = .next t) (hne : t.mem ≠ s.mem) :
    ∃ rs1 rs2 imm12, i = .sw rs1 rs2 imm12 := by
  rcases exec_cases i s with ⟨-, e⟩ | ⟨rd, v, npc, -, e⟩ | ⟨npc, -, e⟩ | ⟨rs1, rs2, imm, hi, -, e⟩ | ⟨ea, -, -, e⟩ <;>
    rw [h] at e <;> cases e
  · exact absurd rfl hne
  · exact absurd rfl hne
  · exact absurd rfl hne
  · exact ⟨rs1, rs2, imm, hi⟩

/-- Settles O42: a halt and a no-op keep the memory, so an instruction ran. -/
theorem onlyStoreWritesMemory : Obligations.OnlyStoreWritesMemory := by
  intro s t h hne
  rcases step_next_cases h with ⟨-, rfl⟩ | ⟨-, -, -, rfl⟩ | ⟨w, -, -, hf, ⟨e, -, rfl⟩ | ⟨i, hd, he⟩⟩
  · exact absurd rfl hne
  · exact absurd rfl hne
  · exact absurd rfl hne
  · obtain ⟨rs1, rs2, imm, rfl⟩ := exec_mem_ne he hne
    exact ⟨w, rs1, rs2, imm, hf, hd⟩

/-- Two machines alike in run state, table and pc take the same branch of the loop, so a relation between their next
states need only be shown branch by branch. -/
theorem step_next_related {R : State → State → Prop} {s s' t : State} (h : step s = .next t)
    (hrun : s'.run = s.run) (htable : s'.instrTable = s.instrTable) (hpc : s'.pc = s.pc)
    (halted : s.run = .halted → R s s') (halt : R s.halt s'.halt) (noop : R (s.retire s.nextPc) (s'.retire s'.nextPc))
    (instr : ∀ w i, fetchWord s.instrTable s.pc = some w → decode w = .ok i → exec i s = .next t →
      ∃ t', exec i s' = .next t' ∧ R t t') :
    ∃ t', step s' = .next t' ∧ R t t' := by
  rcases step_next_cases h with ⟨hr, rfl⟩ | ⟨hr, ht, hb, rfl⟩ | ⟨w, hr, -, hf, hw⟩
  · exact ⟨s', step_halted (hrun.trans hr), halted hr⟩
  · exact ⟨s'.halt, step_bound (hrun.trans hr) (htable ▸ ht) (by rwa [State.lastPc, htable, hpc]), halt⟩
  · rw [step_fetched (hrun.trans hr) (by rw [htable, hpc, hf]), runWord]
    rcases hw with ⟨e, hd, rfl⟩ | ⟨i, hd, he⟩ <;> rw [hd]
    · exact ⟨s'.retire s'.nextPc, rfl, noop⟩
    · exact instr w i hf hd he

/-- `t'` is `t` but for the data memory. -/
def SameButMem (t t' : State) : Prop := { t' with mem := t.mem } = t

/-- An instruction that is no `lw` does the same over any other data memory: each constructor's operands are registers,
the pc and the immediate. -/
theorem exec_other_mem {i : Instr} {s t : State} (m : Memory) (hlw : ∀ rd rs1 imm12, i ≠ .lw rd rs1 imm12)
    (h : exec i s = .next t) : ∃ t', exec i { s with mem := m } = .next t' ∧ SameButMem t t' := by
  cases i with
  | lw rd rs1 imm => exact absurd rfl (hlw rd rs1 imm)
  | sw rs1 rs2 imm =>
    obtain ⟨hea, rfl⟩ := accessAt_eq_next.1 h
    exact ⟨_, accessAt_below hea, rfl⟩
  | halt | add | sub | sll | slt | sltu | xor | srl | or | and | addi | jalr | beq | bne | blt | bge | lui | auipc
  | jal =>
    cases h
    exact ⟨_, rfl, rfl⟩

/-- Settles O43. -/
theorem onlyLoadReadsMemory : Obligations.OnlyLoadReadsMemory := by
  intro s t m hlw h
  refine step_next_related (R := SameButMem) h rfl rfl rfl (fun _ => rfl) rfl rfl fun w i hf hd he => ?_
  exact exec_other_mem m (fun rd rs1 imm hi => hlw w hf rd rs1 imm (hi ▸ hd)) he

/-! ### Nothing reads the `program` slot or the trace (R27, R30) -/

/-- If `t` runs on, `t'` is `t` with its newest entry at the end of `tr` in place of its trace. -/
def SameButOlderTrace (tr : List TraceEntry) (t t' : State) : Prop :=
  t.run = .running → t' = { t with trace := tr ++ [t.snapshot] }

/-- An instruction does the same whatever the `program` slot and the trace hold. -/
theorem exec_other_trace {i : Instr} {s t : State} (p : Word) (tr : List TraceEntry) (h : exec i s = .next t) :
    ∃ t', exec i { s with program := p, trace := tr } = .next t' ∧ SameButOlderTrace tr t t' := by
  cases i with
  | halt => cases h; exact ⟨_, rfl, nofun⟩
  | lw rd rs1 imm =>
    obtain ⟨hea, rfl⟩ := accessAt_eq_next.1 h
    exact ⟨_, accessAt_below hea, fun _ => rfl⟩
  | sw rs1 rs2 imm =>
    obtain ⟨hea, rfl⟩ := accessAt_eq_next.1 h
    exact ⟨_, accessAt_below hea, fun _ => rfl⟩
  | add | sub | sll | slt | sltu | xor | srl | or | and | addi | jalr | beq | bne | blt | bge | lui | auipc | jal =>
    cases h
    exact ⟨_, rfl, fun _ => rfl⟩

/-- Settles O44: a step that goes on is none of the halts. -/
theorem programSlotAndTraceAreNeverRead : Obligations.ProgramSlotAndTraceAreNeverRead := by
  intro s t p tr h hrunning
  obtain ⟨t', ht', hsame⟩ := step_next_related (R := SameButOlderTrace tr) (s' := { s with program := p, trace := tr })
    h rfl rfl rfl (fun hr hr' => nomatch hr.symm.trans hr') nofun (fun _ => rfl)
    fun _ _ _ _ he => exec_other_trace p tr he
  rw [ht', hsame hrunning]
  rfl

end Sys2Proof.Machine
end

section
/-! Proofs of the statements about data memory and fetch (`20_memory.md`): a stored cell is read back, canonical
memories are extensional, and a misaligned fetch faults. -/

namespace Sys2Proof.Machine

/-! ### A store is read until the next write to its key (R45, R46) -/

/-- Writes at other keys leave a cell as it was. -/
theorem Memory.read_foldl_write_other {m : Memory} {a : Nat} {later : List (Nat × Word)} (hm : m.wf)
    (h : ∀ c ∈ later, c.1 < 2 ^ 32 ∧ c.1 ≠ a) :
    Memory.read (later.foldl (fun n c => Memory.write n c.1 c.2) m) a = m.read a := by
  induction later generalizing m with
  | nil => rfl
  | cons c later ih =>
    obtain ⟨⟨hc, hne⟩, hlater⟩ := List.forall_mem_cons.1 h
    rw [List.foldl_cons, ih (write_wf c.2 hm hc) hlater, read_write_other c.2 hm hne.symm]

/-- A load whose effective address is a key answers a next state, with the cell at the address in `rd`. -/
theorem exec_lw_loads {s : State} (rd : RegId) {rs1 : RegId} {imm12 : BitVec 12}
    (h : s.baseOffset rs1 imm12 < 2 ^ 32) :
    ∃ u, exec (.lw rd rs1 imm12) s = .next u ∧ u.reg rd = s.mem.read (s.baseOffset rs1 imm12) := by
  refine ⟨_, accessAt_below h, ?_⟩
  rw [reg_retire, reg_writeReg_same]
  exact binaryIntegerRoundTrip.2 _

/-- A store that answers a next state had a key for its effective address, and the cell there reads as `x[rs2]`. -/
theorem exec_sw_stores {s t : State} {rs1 rs2 : RegId} {imm12 : BitVec 12} (hm : s.mem.wf)
    (h : exec (.sw rs1 rs2 imm12) s = .next t) :
    s.baseOffset rs1 imm12 < 2 ^ 32 ∧ t.mem.read (s.baseOffset rs1 imm12) = s.reg rs2 := by
  obtain ⟨hea, rfl⟩ := accessAt_eq_next.1 h
  exact ⟨hea, (writesOnlyCell_retire _ _ _ hm).written⟩

/-- Settles O47: the later writes are at other keys, and the load computes the address of the store. -/
theorem storeThenLoad : Obligations.StoreThenLoad := by
  refine ⟨fun m a v later hm ha hlater => ?_, fun s t rs1 rs2 rd rs imm imm' hm hsw haddr => ?_⟩
  · rw [Memory.read_foldl_write_other (Memory.write_wf v hm ha) hlater, Memory.read_write_same a v hm]
  · obtain ⟨hea, hstored⟩ := exec_sw_stores hm hsw
    have hsame : t.baseOffset rs imm' = s.baseOffset rs1 imm := haddr
    obtain ⟨u, hlw, hloaded⟩ := exec_lw_loads rd (hsame ▸ hea)
    exact ⟨u, hlw, by rw [hloaded, hsame, hstored]⟩

/-! ### A canonical memory is its reads (R40, R43, R44) -/

/-- The entries of a canonical memory are the cells that do not read as the default. -/
theorem Memory.mem_iff_read {m : Memory} (hm : m.wf) (c : Nat × Word) :
    c ∈ m ↔ m.read c.1 = c.2 ∧ c.2 ≠ Config.memDefault := by
  induction m with
  | nil => exact ⟨nofun, fun ⟨hread, hne⟩ => absurd hread.symm hne⟩
  | cons d m ih =>
    obtain ⟨a, v⟩ := c
    obtain ⟨b, u⟩ := d
    obtain ⟨hlt, -, hu, htail⟩ := Memory.wf_cons.1 hm
    simp only [List.mem_cons, Memory.read, ih htail, Prod.mk.injEq]
    by_cases hab : a = b
    · subst hab
      have habsent : Memory.read m a = Config.memDefault := read_absent fun e he => (hlt e he).ne'
      simp only [if_true, true_and, habsent]
      constructor
      · rintro (rfl | ⟨rfl, hne⟩)
        · exact ⟨rfl, hu⟩
        · exact absurd rfl hne
      · exact fun ⟨heq, _⟩ => .inl heq.symm
    · simp only [hab, if_false, false_and, false_or]

/-- Settles O48: the reads fix the entries, and the rising keys fix their order. -/
theorem canonicalMemoryIsExtensional : Obligations.CanonicalMemoryIsExtensional := by
  intro m n hm hn hread
  have hmem : ∀ c, c ∈ m ↔ c ∈ n := fun c => by
    rw [Memory.mem_iff_read hm, Memory.mem_iff_read hn, hread]
  have hperm : m.Perm n :=
    (List.perm_ext_iff_of_nodup (hm.1.imp fun h => ne_of_apply_ne Prod.fst h.ne)
      (hn.1.imp fun h => ne_of_apply_ne Prod.fst h.ne)).2 hmem
  exact hperm.eq_of_pairwise (fun _ _ _ _ hcd hdc => absurd hdc hcd.asymm) hm.1 hn.1

/-! ### A misaligned fetch (R53) -/

/-- An address that is not a multiple of 4 is no key of any table. -/
theorem fetchWord_misaligned {it : List Word} {a : Nat} (h : a % 4 ≠ 0) : fetchWord it a = none := if_neg h

/-- Settles O30. -/
theorem misalignedFetchFaults : Obligations.MisalignedFetchFaults := fun _ hr ht hb hpc =>
  step_unmapped hr ht (Nat.not_lt.2 hb) (fetchWord_misaligned hpc)

end Sys2Proof.Machine
end

section
/-! Proofs of the statements about the encoding (`30_encoding.md`): decoder and encoder are inverse to each other, the
decoder follows the opcode table, the immediates as numbers, and a word that is no instruction runs as a no-op. -/

namespace Sys2Proof

/-! ### The decoder undoes the encoder (R62 to R75) -/

theorem wf_beq_iff {rs1 rs2 : RegId} {imm : BitVec 13} :
    (Instr.beq rs1 rs2 imm).wf = true ↔ evenImm imm = true ∧ ¬ (rs1 = 0 ∧ rs2 = 0 ∧ imm = 0#13) := by
  simp [Instr.wf, imp_iff_not_or, or_assoc]

/-- The branch word with the sentinel's fields is the only one the decoder does not read as a branch (R75, R81). -/
theorem encodeB_ne_haltWord {f3 : BitVec 3} {rs1 rs2 : RegId} {imm : BitVec 13} (heven : evenImm imm = true)
    (h : ¬ (f3 = Config.f3Beq ∧ rs1 = 0 ∧ rs2 = 0 ∧ imm = 0#13)) : encodeB f3 rs1 rs2 imm ≠ Config.haltWord := by
  intro e
  refine h ⟨?_, ?_, ?_, ?_⟩
  · rw [← funct3Of_encodeB f3 rs1 rs2 imm, e, funct3Of_haltWord]
  · rw [← rs1Of_encodeB f3 rs1 rs2 imm, e, rs1Of_haltWord]
  · rw [← rs2Of_encodeB f3 rs1 rs2 imm, e, rs2Of_haltWord]
  · rw [← imm13Of_encodeB f3 rs1 rs2 heven, e, imm13Of_haltWord]

/-- A well-formed branch goes to the B unit. -/
theorem decode_encodeB {f3 : BitVec 3} {rs1 rs2 : RegId} {imm : BitVec 13} (heven : evenImm imm = true)
    (h : ¬ (f3 = Config.f3Beq ∧ rs1 = 0 ∧ rs2 = 0 ∧ imm = 0#13)) :
    decode (encodeB f3 rs1 rs2 imm) = decodeBranch (encodeB f3 rs1 rs2 imm) :=
  decode_opcBranch (opcodeOf_encodeB f3 rs1 rs2 imm) (encodeB_ne_haltWord heven h)

/-- The opcode of the encoding selects the unit, and the unit reads back the function codes and the operands. -/
theorem decode_encode {i : Instr} (h : i.wf = true) : decode (encode i) = .ok i := by
  cases i with
  | halt => rfl
  | add | sub | sll | slt | sltu | xor | srl | or | and =>
    rw [encode, decode_opcR (opcodeOf_encodeR ..)]
    simp only [decodeR, funct7Of_encodeR, funct3Of_encodeR, rdOf_encodeR, rs1Of_encodeR, rs2Of_encodeR]
    rfl
  | lw =>
    rw [encode, decode_opcLoad (opcodeOf_encodeI ..)]
    simp only [decodeLoad, funct3Of_encodeI, rdOf_encodeI, rs1Of_encodeI, imm12IOf_encodeI, if_true]
  | addi =>
    rw [encode, decode_opcOpImm (opcodeOf_encodeI ..)]
    simp only [decodeOpImm, funct3Of_encodeI, rdOf_encodeI, rs1Of_encodeI, imm12IOf_encodeI, if_true]
  | jalr =>
    rw [encode, decode_opcJalr (opcodeOf_encodeI ..)]
    simp only [decodeJalr, funct3Of_encodeI, rdOf_encodeI, rs1Of_encodeI, imm12IOf_encodeI, if_true]
  | sw =>
    rw [encode, decode_opcStore (opcodeOf_encodeS ..)]
    simp only [decodeStore, funct3Of_encodeS, rs1Of_encodeS, rs2Of_encodeS, imm12SOf_encodeS, if_true]
  | beq rs1 rs2 imm =>
    obtain ⟨heven, hne⟩ := wf_beq_iff.1 h
    rw [encode, decode_encodeB heven fun ⟨_, hfields⟩ => hne hfields]
    simp only [decodeBranch, funct3Of_encodeB, rs1Of_encodeB, rs2Of_encodeB, imm13Of_encodeB _ _ _ heven, if_true]
  | bne | blt | bge =>
    rw [encode, decode_encodeB h fun ⟨hcode, _⟩ => absurd hcode (by decide)]
    simp only [decodeBranch, funct3Of_encodeB, rs1Of_encodeB, rs2Of_encodeB, imm13Of_encodeB _ _ _ h]
    rfl
  | lui => rw [encode, decode_opcLui (opcodeOf_encodeU ..), rdOf_encodeU, imm20Of_encodeU]
  | auipc => rw [encode, decode_opcAuipc (opcodeOf_encodeU ..), rdOf_encodeU, imm20Of_encodeU]
  | jal => rw [encode, decode_opcJal (opcodeOf_encodeJ ..), rdOf_encodeJ, imm21Of_encodeJ _ h]

/-- Settles O49. -/
theorem decodeOfEncode : Obligations.DecodeOfEncode := fun _ => decode_encode

/-! ### The encoder undoes the decoder: no bit of a word is dropped (R62 to R75) -/

theorem encode_of_decodeR {w : Word} {i : Instr} (hop : opcodeOf w = Config.opcR) (h : decodeR w = .ok i) :
    i.wf = true ∧ encode i = w := by
  have hword := encodeR_fields hop
  simp only [decodeR] at h
  split_ifs at h with hsub hbase h3 h3 h3 h3 h3 h3 h3 h3
  · obtain ⟨h7, h3⟩ := hsub
    cases h
    exact ⟨rfl, by rw [encode, ← h7, ← h3, hword]⟩
  all_goals
    cases h
    exact ⟨rfl, by rw [encode, ← not_not.1 hbase, ← h3, hword]⟩

/-- The fields of `beq x0, x0, 0` are those of the sentinel only. -/
theorem eq_haltWord_of_fields {w : Word} (hop : opcodeOf w = Config.opcBranch) (h3 : funct3Of w = Config.f3Beq)
    (h1 : rs1Of w = 0) (h2 : rs2Of w = 0) (himm : imm13Of w = 0#13) : w = Config.haltWord := by
  rw [← encodeB_fields hop, h3, h1, h2, himm]
  decide

/-- A `beq` is well formed because the sentinel has been taken out before the B unit sees the word (R75). -/
theorem encode_of_decodeBranch {w : Word} {i : Instr} (hhalt : w ≠ Config.haltWord)
    (hop : opcodeOf w = Config.opcBranch) (h : decodeBranch w = .ok i) : i.wf = true ∧ encode i = w := by
  have hword := encodeB_fields hop
  have heven := evenImm_imm13Of w
  simp only [decodeBranch] at h
  split_ifs at h with h3 h3 h3 h3
  · cases h
    have hfields : ¬ (rs1Of w = 0 ∧ rs2Of w = 0 ∧ imm13Of w = 0#13) := fun ⟨h1, h2, himm⟩ =>
      hhalt (eq_haltWord_of_fields hop h3 h1 h2 himm)
    exact ⟨wf_beq_iff.2 ⟨heven, hfields⟩, by rw [encode, ← h3, hword]⟩
  all_goals
    cases h
    exact ⟨heven, by rw [encode, ← h3, hword]⟩

/-- The sentinel test and the opcode select the unit, and each unit keeps every field of the word. -/
theorem encode_of_decode {w : Word} {i : Instr} (h : decode w = .ok i) : i.wf = true ∧ encode i = w := by
  simp only [decode, decodeLoad, decodeOpImm, decodeJalr, decodeStore] at h
  split_ifs at h with hhalt hop hop h3 hop h3 hop h3 hop h3 hop hop hop hop
  · cases h; exact ⟨rfl, hhalt.symm⟩
  · exact encode_of_decodeR hop h
  iterate 3
    · cases h; exact ⟨rfl, by rw [encode, ← hop, ← h3, encodeI_fields]⟩
  · cases h; exact ⟨rfl, by rw [encode, ← h3, encodeS_fields hop]⟩
  · exact encode_of_decodeBranch hhalt hop h
  iterate 2
    · cases h; exact ⟨rfl, by rw [encode, ← hop, encodeU_fields]⟩
  · cases h; exact ⟨evenImm_imm21Of w, by rw [encode, encodeJ_fields hop]⟩

/-- Settles O50. -/
theorem encodeOfDecode : Obligations.EncodeOfDecode := fun _ _ => encode_of_decode

/-! ### The decoder follows the opcode table (R74, R75, R85) -/

theorem Instr.row_mem (i : Instr) : i.row ∈ opcodeTable := by
  cases i <;> simp [opcodeTable, Instr.row]

theorem exists_row_eq {r : OpcodeRow} (h : r ∈ opcodeTable) : ∃ i : Instr, i.row = r := by
  revert r
  simp only [opcodeTable, List.forall_mem_append, List.forall_mem_cons, List.not_mem_nil, false_implies, implies_true,
    and_true]
  and_intros <;> exact ⟨_, rfl⟩

/-- Every instruction's word is of its own row, one law per constructor. -/
theorem encode_and_mask (i : Instr) : encode i &&& i.row.mask = i.row.pattern := by
  cases i
  exacts [Laws.RowPattern.halt, Laws.RowPattern.add .., Laws.RowPattern.sub .., Laws.RowPattern.sll ..,
    Laws.RowPattern.slt .., Laws.RowPattern.sltu .., Laws.RowPattern.xor .., Laws.RowPattern.srl ..,
    Laws.RowPattern.or .., Laws.RowPattern.and .., Laws.RowPattern.lw .., Laws.RowPattern.addi ..,
    Laws.RowPattern.jalr .., Laws.RowPattern.sw .., Laws.RowPattern.beq .., Laws.RowPattern.bne ..,
    Laws.RowPattern.blt .., Laws.RowPattern.bge .., Laws.RowPattern.lui .., Laws.RowPattern.auipc ..,
    Laws.RowPattern.jal ..]

/-- A word that decodes is of its instruction's row. -/
theorem and_mask_of_decode {w : Word} {i : Instr} (h : decode w = .ok i) : w &&& i.row.mask = i.row.pattern := by
  obtain ⟨-, rfl⟩ := encode_of_decode h
  exact encode_and_mask i

/-- A mask that covers a field fixes it. -/
theorem field_of_and_eq {w m p : Word} {start len : Nat} (h : w &&& m = p)
    (hm : m.extractLsb' start len = BitVec.allOnes len) : w.extractLsb' start len = p.extractLsb' start len := by
  rw [← h, BitVec.extractLsb'_and, hm, BitVec.and_allOnes]

theorem opcodeOf_of_and_eq {w m p : Word} (h : w &&& m = p) (hm : opcodeOf m = BitVec.allOnes 7) :
    opcodeOf w = opcodeOf p := field_of_and_eq h hm

theorem funct3Of_of_and_eq {w m p : Word} (h : w &&& m = p) (hm : funct3Of m = BitVec.allOnes 3) :
    funct3Of w = funct3Of p := field_of_and_eq h hm

theorem funct7Of_of_and_eq {w m p : Word} (h : w &&& m = p) (hm : funct7Of m = BitVec.allOnes 7) :
    funct7Of w = funct7Of p := field_of_and_eq h hm

/-- A word of a row, other than the sentinel, decodes to an instruction of that row: the mask covers the opcode and the
function codes the unit matches. -/
theorem decode_of_row {w : Word} {i : Instr} (hw : w ≠ Config.haltWord) (h : w &&& i.row.mask = i.row.pattern) :
    ∃ j, decode w = .ok j ∧ j.row = i.row := by
  cases i <;> simp only [Instr.row] at h
  case halt => exact absurd (by rw [← and_maskAll w]; exact h) hw
  case add | sub | sll | slt | sltu | xor | srl | or | and =>
    have hop := opcodeOf_of_and_eq h (by decide)
    have h3 := funct3Of_of_and_eq h (by decide)
    have h7 := funct7Of_of_and_eq h (by decide)
    rw [decode_opcR hop, decodeR, h7, h3]
    exact ⟨_, rfl, by rfl⟩
  case lw =>
    rw [decode_opcLoad (opcodeOf_of_and_eq h (by decide)), decodeLoad, funct3Of_of_and_eq h (by decide)]
    exact ⟨_, rfl, by rfl⟩
  case addi =>
    rw [decode_opcOpImm (opcodeOf_of_and_eq h (by decide)), decodeOpImm, funct3Of_of_and_eq h (by decide)]
    exact ⟨_, rfl, by rfl⟩
  case jalr =>
    rw [decode_opcJalr (opcodeOf_of_and_eq h (by decide)), decodeJalr, funct3Of_of_and_eq h (by decide)]
    exact ⟨_, rfl, by rfl⟩
  case sw =>
    rw [decode_opcStore (opcodeOf_of_and_eq h (by decide)), decodeStore, funct3Of_of_and_eq h (by decide)]
    exact ⟨_, rfl, by rfl⟩
  case beq | bne | blt | bge =>
    rw [decode_opcBranch (opcodeOf_of_and_eq h (by decide)) hw, decodeBranch, funct3Of_of_and_eq h (by decide)]
    exact ⟨_, rfl, by rfl⟩
  case lui => exact ⟨_, decode_opcLui (opcodeOf_of_and_eq h (by decide)), rfl⟩
  case auipc => exact ⟨_, decode_opcAuipc (opcodeOf_of_and_eq h (by decide)), rfl⟩
  case jal => exact ⟨_, decode_opcJal (opcodeOf_of_and_eq h (by decide)), rfl⟩

theorem decode_haltWord : decode Config.haltWord = .ok .halt := if_pos rfl

theorem OpcodeRow.holds_iff {r : OpcodeRow} {w : Word} : r.holds w = true ↔ w &&& r.mask = r.pattern := beq_iff_eq

/-- The row of a word is in the table and holds of it. -/
theorem of_rowOf_eq_some {w : Word} {r : OpcodeRow} (h : rowOf w = some r) :
    r ∈ opcodeTable ∧ w &&& r.mask = r.pattern := by
  rw [rowOf] at h
  have hholds := List.find?_some h
  exact ⟨List.mem_of_find?_eq_some h, OpcodeRow.holds_iff.1 hholds⟩

theorem rowOf_haltWord : rowOf Config.haltWord = some Instr.halt.row := rfl

/-- A word that decodes has its instruction's row for its own: a first row that holds of it exists, and decoding by
that row gives the same instruction. -/
theorem rowOf_of_decode {w : Word} {i : Instr} (h : decode w = .ok i) : rowOf w = some i.row := by
  by_cases hw : w = Config.haltWord
  · subst hw
    cases decode_haltWord.symm.trans h
    exact rowOf_haltWord
  cases hrow : rowOf w with
  | none => exact absurd (OpcodeRow.holds_iff.2 (and_mask_of_decode h)) (List.find?_eq_none.1 hrow _ i.row_mem)
  | some r =>
    obtain ⟨hr, hholds⟩ := of_rowOf_eq_some hrow
    obtain ⟨k, rfl⟩ := exists_row_eq hr
    obtain ⟨j, hj, hjrow⟩ := decode_of_row hw hholds
    cases hj.symm.trans h
    rw [hjrow]

/-- No row holds of a rejected word. -/
theorem and_mask_ne_of_decode_error {w : Word} {e : DecodeReject} (h : decode w = .error e) {r : OpcodeRow}
    (hr : r ∈ opcodeTable) : w &&& r.mask ≠ r.pattern := by
  have hw : w ≠ Config.haltWord := by
    rintro rfl
    cases decode_haltWord.symm.trans h
  obtain ⟨i, rfl⟩ := exists_row_eq hr
  intro hrow
  obtain ⟨j, hj, -⟩ := decode_of_row hw hrow
  cases hj.symm.trans h

/-- Settles O51. -/
theorem decoderFollowsTable : Obligations.DecoderFollowsTable := fun _ =>
  ⟨fun _ => rowOf_of_decode, fun _ h _ => and_mask_ne_of_decode_error h⟩

/-- A word of no row is rejected, since a word that decodes is of its instruction's row. -/
theorem decode_error_of_no_row {w : Word} (h : ∀ r ∈ opcodeTable, w &&& r.mask ≠ r.pattern) :
    ∃ e, decode w = .error e := by
  cases hd : decode w with
  | ok i => exact absurd (and_mask_of_decode hd) (h i.row i.row_mem)
  | error e => exact ⟨e, rfl⟩

/-- A word whose opcode is none of the nine is rejected as unrecognised; the sentinel's opcode is `OPC_BRANCH`. -/
theorem decode_unrecognised {w : Word}
    (h : opcodeOf w ∉ [Config.opcR, Config.opcLoad, Config.opcOpImm, Config.opcJalr, Config.opcStore,
      Config.opcBranch, Config.opcLui, Config.opcAuipc, Config.opcJal]) : decode w = .error .unrecognised := by
  simp only [List.mem_cons, List.not_mem_nil, not_or] at h
  obtain ⟨hR, hLoad, hOpImm, hJalr, hStore, hBranch, hLui, hAuipc, hJal, -⟩ := h
  have hw := ne_haltWord_of_opcode hBranch
  simp only [decode, hw, hR, hLoad, hOpImm, hJalr, hStore, hBranch, hLui, hAuipc, hJal, if_false]

/-- Settles O53, by running the decoder on each word. -/
theorem sampleWordsDecode : Obligations.SampleWordsDecode :=
  ⟨rfl, rfl, rfl, rfl, rfl, rfl, rfl, rfl, rfl⟩

/-! ### The immediates as numbers (R68 to R72) -/

theorem toNat_field (w : Word) (start len : Nat) :
    (w.extractLsb' start len).toNat = w.toNat / 2 ^ start % 2 ^ len := by
  rw [BitVec.extractLsb'_toNat, Nat.shiftRight_eq_div_pow]

theorem toNat_append_eq_add {m n : Nat} (a : BitVec m) (b : BitVec n) :
    (a ++ b).toNat = a.toNat * 2 ^ n + b.toNat := by
  rw [BitVec.toNat_append, ← Nat.shiftLeft_add_eq_or_of_lt b.isLt, Nat.shiftLeft_eq]

/-- Settles O52: each immediate is a string of fields, and the one that ends at bit 31 needs no reduction. -/
theorem immediatesOfWords : Obligations.ImmediatesOfWords := by
  intro w
  have hw : w.toNat < 2 ^ 32 := w.isLt
  simp only [imm12IOf, imm12SOf, imm13Of, imm20Of, imm21Of, toNat_append_eq_add, toNat_field, BitVec.toNat_zero]
  and_intros <;> omega

end Sys2Proof

namespace Sys2Proof.Machine

/-! ### A word that is no instruction is a no-op (R78, R79, R82) -/

/-- A step that fetches a rejected word retires at `pc + 4` and writes nothing. -/
theorem step_rejected {s : State} {w : Word} {e : DecodeReject} (hr : s.run = .running)
    (hf : fetchWord s.instrTable s.pc = some w) (hd : decode w = .error e) :
    ∃ t, step s = .next t ∧ Executed s t (s.pc + 4) ∧ SameRegs s t ∧ SameMem s t := by
  refine ⟨s.retire s.nextPc, ?_, executed_retire _ rfl rfl rfl, sameRegs_retire s _, sameMem_retire s _⟩
  rw [step_fetched hr hf, runWord, hd]
  rfl

/-- Settles O27. -/
theorem unmatchedWordIsNoop : Obligations.UnmatchedWordIsNoop := fun _ _ hr hf _ hrows =>
  have ⟨_, hd⟩ := decode_error_of_no_row hrows
  step_rejected hr hf hd

/-- Settles O28. -/
theorem unrecognisedOpcodeIsNoop : Obligations.UnrecognisedOpcodeIsNoop := fun _ _ hr hf hop =>
  step_rejected hr hf (decode_unrecognised hop)

/-- An instruction answers a next state or the overflow of its data address. -/
theorem exec_next_or_overflow (i : Instr) (s : State) :
    (∃ t, exec i s = .next t) ∨
    ∃ ea, dataAddress i s = some ea ∧ 2 ^ 32 ≤ ea ∧ exec i s = .fault (.addressOverflow ea) := by
  rcases exec_cases i s with ⟨-, e⟩ | ⟨rd, v, npc, -, e⟩ | ⟨npc, -, e⟩ | ⟨rs1, rs2, imm, -, -, e⟩ | hoverflow
  · exact .inl ⟨_, e⟩
  · exact .inl ⟨_, e⟩
  · exact .inl ⟨_, e⟩
  · exact .inl ⟨_, e⟩
  · exact .inr hoverflow

/-- Settles O31: a fetched word runs its instruction or is a no-op. -/
theorem noWordIsIllegal : Obligations.NoWordIsIllegal := by
  intro s w hr hf
  rw [step_fetched hr hf]
  rcases runWord_cases w s with ⟨i, hd, e⟩ | ⟨_, -, e⟩ <;> rw [e]
  · rcases exec_next_or_overflow i s with hnext | ⟨ea, haddr, hea, hfault⟩
    · exact .inl hnext
    · exact .inr ⟨i, ea, hd, haddr, hea, hfault⟩
  · exact .inl ⟨_, rfl⟩

end Sys2Proof.Machine
end

section
/-! Proofs of the statements about the R family (`40_r_type.md`): what each result is as 32 bits, and one rule that
gives the frame of the nine. -/

namespace Sys2Proof.Machine

/-! ### The frame of the family (R99) -/

/-- An instruction that stores the integer `x` in `rd` and goes on to `pc + 4` has the frame of the family, with
the 32 bits of `x` in `rd`. -/
theorem exec_writeReg_result {i : Instr} {s : State} {rd : RegId} {x : Int} {v : Nat}
    (he : exec i s = .next ((s.writeReg rd x).retire s.nextPc)) (hx : (toBinary32 x).toNat = v) :
    ∃ t, exec i s = .next t ∧ Executed s t (s.pc + 4) ∧ SameMem s t ∧ WritesOnlyReg s t rd v := by
  refine ⟨_, he, executed_writeReg_retire s rd x _, sameMem_writeReg_retire s rd x _, ?_⟩
  rw [← hx, toNat_toBinary32]
  exact writesOnlyReg_retire s rd x _

/-- A word's own number is stored as that word. -/
theorem toNat_toBinary32_word (w : Word) : (toBinary32 (w.toNat : Int)).toNat = w.toNat :=
  congrArg BitVec.toNat (binaryIntegerRoundTrip.2 w)

/-! ### The shifts (R92, R96, R103) -/

/-- The shift amount is the number in the low 5 bits. -/
theorem shiftAmount_toNat (b : Word) : shiftAmount b.toNat = (b.extractLsb' 0 5).toNat := by
  rw [toNat_field, pow_zero, Nat.div_one]
  rfl

/-- The product with a power of two, reduced, is the shift to the left. -/
theorem toNat_toBinary32_mul_shiftAmount (a b : Word) :
    (toBinary32 ((a.toNat * 2 ^ shiftAmount b.toNat : Nat) : Int)).toNat =
      (a <<< (b.extractLsb' 0 5).toNat).toNat := by
  rw [toNat_toBinary32_nat, shiftAmount_toNat, BitVec.toNat_shiftLeft, Nat.shiftLeft_eq]

/-- Settles O7. -/
theorem sllResult : Obligations.SllResult := fun _ _ _ _ =>
  exec_writeReg_result rfl (toNat_toBinary32_mul_shiftAmount _ _)

/-- The quotient by a power of two is the logical shift to the right. -/
theorem toNat_toBinary32_div_shiftAmount (a b : Word) :
    (toBinary32 ((a.toNat / 2 ^ shiftAmount b.toNat : Nat) : Int)).toNat =
      (a >>> (b.extractLsb' 0 5).toNat).toNat := by
  rw [shiftAmount_toNat, ← Nat.shiftRight_eq_div_pow, ← BitVec.toNat_ushiftRight, toNat_toBinary32_word]

/-- Settles O11. -/
theorem srlResult : Obligations.SrlResult := fun _ _ _ _ =>
  exec_writeReg_result rfl (toNat_toBinary32_div_shiftAmount _ _)

/-! ### Sum and difference (R90, R91) -/

/-- Settles O5: the sum is a natural number, stored modulo `2^32`. -/
theorem addResult : Obligations.AddResult := fun _ _ _ _ => exec_writeReg_result rfl (toNat_toBinary32_nat _)

/-- The difference of two words is stored as it is, or wrapped once when it is negative. -/
theorem toNat_toBinary32_sub (a b : Word) :
    (toBinary32 ((a.toNat : Int) - b.toNat)).toNat =
      if b.toNat ≤ a.toNat then a.toNat - b.toNat else 2 ^ 32 + a.toNat - b.toNat := by
  have ha := a.isLt
  have hb := b.isLt
  rw [toNat_toBinary32]
  split <;> omega

/-- Settles O6. -/
theorem subResult : Obligations.SubResult := fun _ _ _ _ => exec_writeReg_result rfl (toNat_toBinary32_sub _ _)

/-! ### The comparison (R93, R94, R101) -/

/-- The condition of `slt` and `sltu` is the unsigned order of words. -/
theorem condLt_toNat (a b : Word) : condLt a.toNat b.toNat = a.ult b := rfl

/-- The truth value of the comparison is stored as 1 or 0. -/
theorem toNat_toBinary32_condLt (a b : Word) :
    (toBinary32 (if condLt a.toNat b.toNat then 1 else 0)).toNat = if a.ult b then 1 else 0 := by
  rw [condLt_toNat]
  split <;> rfl

/-- Settles O8. -/
theorem sltResult : Obligations.SltResult := fun _ _ _ _ => exec_writeReg_result rfl (toNat_toBinary32_condLt _ _)

/-- `sltu` is identical in effect to `slt` (R94). -/
theorem exec_sltu_eq_slt (rd rs1 rs2 : RegId) (s : State) : exec (.sltu rd rs1 rs2) s = exec (.slt rd rs1 rs2) s := rfl

/-- Settles O9. -/
theorem sltuResult : Obligations.SltuResult := by
  intro rd rs1 rs2 s
  rw [exec_sltu_eq_slt]
  exact sltResult rd rs1 rs2 s

/-! ### The bitwise operations (R95, R97, R98)

On the numbers of two words they give the number of a word, and that is stored as the word. -/

/-- Settles O10. -/
theorem xorResult : Obligations.XorResult := fun _ rs1 rs2 s =>
  exec_writeReg_result rfl (toNat_toBinary32_word (s.reg rs1 ^^^ s.reg rs2))

/-- Settles O12. -/
theorem orResult : Obligations.OrResult := fun _ rs1 rs2 s =>
  exec_writeReg_result rfl (toNat_toBinary32_word (s.reg rs1 ||| s.reg rs2))

/-- Settles O13. -/
theorem andResult : Obligations.AndResult := fun _ rs1 rs2 s =>
  exec_writeReg_result rfl (toNat_toBinary32_word (s.reg rs1 &&& s.reg rs2))

end Sys2Proof.Machine
end

section
/-! Proofs of the statements about the I family (`41_i_type.md`): the frame of an instruction that writes a register
and jumps, the three results, and that only `jalr` lowers the pc. -/

namespace Sys2Proof.Machine

/-! ### Load and addition (R110, R111) -/

/-- Settles O14: below `2^32` the access ends in a register write, whose value is the loaded word's own number. -/
theorem loadWordResult : Obligations.LoadWordResult := fun _ _ _ _ =>
  ⟨fun hea => exec_writeReg_result (accessAt_below hea) (toNat_toBinary32_word _), accessAt_above⟩

/-- Settles O15: the sum is a natural number, stored modulo `2^32`. -/
theorem addImmediateResult : Obligations.AddImmediateResult := fun _ _ _ _ =>
  exec_writeReg_result rfl (toNat_toBinary32_nat _)

/-! ### Link and jump (R112) -/

/-- An instruction that stores the link value in `rd` and goes on to `npc` writes `pc + 4` modulo `2^32` there and
nothing else. -/
theorem exec_link_result {i : Instr} {s : State} {rd : RegId} {npc : Nat}
    (he : exec i s = .next ((s.writeReg rd s.nextPc).retire npc)) :
    ∃ t, exec i s = .next t ∧ Executed s t npc ∧ SameMem s t ∧ WritesOnlyReg s t rd ((s.pc + 4) % 2 ^ 32) := by
  refine ⟨_, he, executed_writeReg_retire s rd _ npc, sameMem_writeReg_retire s rd _ npc, ?_⟩
  have hlink : (toBinary32 s.nextPc).toNat = (s.pc + 4) % 2 ^ 32 := toNat_toBinary32_nat _
  rw [← hlink, toNat_toBinary32]
  exact writesOnlyReg_retire s rd _ npc

/-- Settles O16: the target is a sum over the state before the link is written, also when `rd = rs1`. -/
theorem jumpAndLinkRegisterResult : Obligations.JumpAndLinkRegisterResult := fun _ _ _ _ => exec_link_result rfl

/-! ### Only `jalr` goes backwards (R112, R129, R140) -/

/-- An instruction that lowers the pc is a `jalr`: any other target is the pc plus a natural number. -/
theorem exec_pc_lt {i : Instr} {s t : State} (h : exec i s = .next t) (hlt : t.pc < s.pc) :
    ∃ rd rs1 imm12, i = .jalr rd rs1 imm12 := by
  rcases exec_next_pc h with hpc | hpc | hjalr | ⟨_, _, _, -, hpc⟩ | ⟨_, _, -, hpc⟩
  · omega
  · omega
  · exact hjalr
  · omega
  · omega

/-- Settles O40: a halt keeps the pc and a no-op raises it, so an instruction ran. -/
theorem onlyJalrGoesBackwards : Obligations.OnlyJalrGoesBackwards := by
  intro s t h hlt
  rcases step_next_cases h with ⟨-, rfl⟩ | ⟨-, -, -, rfl⟩ | ⟨w, -, -, hf, ⟨e, -, rfl⟩ | ⟨i, hd, he⟩⟩
  · exact absurd hlt (Nat.lt_irrefl _)
  · exact absurd hlt (Nat.lt_irrefl _)
  · exact absurd hlt (Nat.not_lt.2 (Nat.le_add_right s.pc 4))
  · obtain ⟨rd, rs1, imm, rfl⟩ := exec_pc_lt he hlt
    exact ⟨w, rd, rs1, imm, hf, hd⟩

end Sys2Proof.Machine
end

section
/-! Proofs of the statements about the S family (`42_s_type.md`): a store writes one whole cell or overflows. -/

namespace Sys2Proof.Machine

/-- A store whose effective address is a key answers a next state at `pc + 4`, in which `x[rs2]` stands in the cell at
the address and nothing else has changed (R120). -/
theorem exec_sw_result {s : State} {rs1 : RegId} (rs2 : RegId) {imm12 : BitVec 12} (hm : s.mem.wf)
    (hea : s.baseOffset rs1 imm12 < 2 ^ 32) :
    ∃ t, exec (.sw rs1 rs2 imm12) s = .next t ∧ Executed s t (s.pc + 4) ∧ SameRegs s t ∧
      WritesOnlyCell s t (s.baseOffset rs1 imm12) (s.reg rs2) :=
  ⟨_, accessAt_below hea, executed_writeMem_retire s _ _ _, sameRegs_writeMem_retire s _ _ _,
    writesOnlyCell_retire _ _ _ hm⟩

/-- Settles O17: the sum in the statement is the effective address of the access, which overflows from `2^32` on. -/
theorem storeWordResult : Obligations.StoreWordResult := fun _ rs2 _ _ hm =>
  ⟨exec_sw_result rs2 hm, accessAt_above⟩

end Sys2Proof.Machine
end

section
/-! Proofs of the statements about the B family (`43_b_type.md`): one rule for the result and the frame of the four,
the four conditions on words, and the branch that repeats for ever. -/

namespace Sys2Proof.Machine

/-! ### The conditions on words (R125, R126, R128) -/

/-- Equal numbers are equal words. -/
theorem condEq_toNat_iff (a b : Word) : condEq a.toNat b.toNat = true ↔ a = b :=
  (condEq_iff _ _).trans BitVec.toNat_inj

theorem condNe_toNat_iff (a b : Word) : condNe a.toNat b.toNat = true ↔ a ≠ b :=
  (condNe_iff _ _).trans (not_congr BitVec.toNat_inj)

/-- The condition of `bge` is the unsigned order of words, its operands exchanged. -/
theorem condGe_toNat (a b : Word) : condGe a.toNat b.toNat = b.ule a := rfl

/-! ### Result and frame of the family (R129) -/

/-- A branch whose condition says `p` of its two registers goes on to the extended offset if `p` holds and to `pc + 4`
if not, and writes no register and no cell. -/
theorem exec_branch_result {i : Instr} {s : State} {cond : Nat → Nat → Bool} {rs1 rs2 : RegId} {imm13 : BitVec 13}
    {p : Prop} [Decidable p] (he : exec i = execBranch cond rs1 rs2 imm13)
    (hcond : cond (s.readReg rs1) (s.readReg rs2) = true ↔ p) :
    ∃ t, exec i s = .next t ∧ Executed s t (if p then s.pc + (qext32 imm13).toNat else s.pc + 4) ∧
      SameRegs s t ∧ SameMem s t := by
  refine ⟨s.retire (if p then s.pcOffset imm13 else s.nextPc), ?_, executed_retire _ rfl rfl rfl,
    sameRegs_retire s _, sameMem_retire s _⟩
  rw [he, execBranch, if_congr hcond rfl rfl]

/-- Settles O18. -/
theorem branchEqualResult : Obligations.BranchEqualResult := fun _ _ _ _ =>
  exec_branch_result rfl (condEq_toNat_iff _ _)

/-- Settles O19. -/
theorem branchNotEqualResult : Obligations.BranchNotEqualResult := fun _ _ _ _ =>
  exec_branch_result rfl (condNe_toNat_iff _ _)

/-- Settles O20. -/
theorem branchLessResult : Obligations.BranchLessResult := fun _ _ _ _ =>
  exec_branch_result rfl (Bool.eq_iff_iff.1 (condLt_toNat _ _))

/-- Settles O21. -/
theorem branchGreaterEqualResult : Obligations.BranchGreaterEqualResult := fun _ _ _ _ =>
  exec_branch_result rfl (Bool.eq_iff_iff.1 (condGe_toNat _ _))

/-! ### A taken branch with offset 0 (R129, R163) -/

/-- A step that fetches the word of an instruction runs the instruction. -/
theorem step_decoded {s : State} {w : Word} {i : Instr} (hr : s.run = .running)
    (hf : fetchWord s.instrTable s.pc = some w) (hd : decode w = .ok i) : step s = exec i s := by
  rw [step_fetched hr hf, runWord, hd]

/-- `s` is RUNNING and its next step takes a branch on `cond` with offset 0. -/
structure TakesZeroOffset (cond : Nat → Nat → Bool) (rs1 rs2 : RegId) (s : State) : Prop where
  running : s.run = .running
  fetches : ∃ w i, fetchWord s.instrTable s.pc = some w ∧ decode w = .ok i ∧ exec i = execBranch cond rs1 rs2 0#13
  taken : cond (s.readReg rs1) (s.readReg rs2) = true

theorem pcOffset_zero (s : State) : s.pcOffset 0#13 = s.pc := rfl

section
variable {cond : Nat → Nat → Bool} {rs1 rs2 : RegId} {s : State}

theorem TakesZeroOffset.step (h : TakesZeroOffset cond rs1 rs2 s) : step s = .next (s.retire s.pc) := by
  obtain ⟨w, i, hf, hd, he⟩ := h.fetches
  rw [step_decoded h.running hf hd, he, execBranch, if_pos h.taken, pcOffset_zero]

/-- The step keeps all that the branch depends on: run state, table, pc and registers. -/
theorem TakesZeroOffset.retire (h : TakesZeroOffset cond rs1 rs2 s) : TakesZeroOffset cond rs1 rs2 (s.retire s.pc) where
  running := h.running
  fetches := h.fetches
  taken := h.taken

/-- Any number of steps comes back to the same branch, with pc and registers as they were. -/
theorem TakesZeroOffset.run (h : TakesZeroOffset cond rs1 rs2 s) (k : Nat) :
    ∃ t, core.run k s = .next t ∧ TakesZeroOffset cond rs1 rs2 t ∧ t.pc = s.pc ∧ SameRegs s t := by
  induction k generalizing s with
  | zero => exact ⟨s, run_zero s, h, rfl, fun _ => rfl⟩
  | succ k ih =>
    obtain ⟨t, hrun, ht, hpc, hregs⟩ := ih h.retire
    exact ⟨t, (run_succ_next k h.step).trans hrun, ht, hpc, hregs⟩

/-- The run is RUNNING at its end, so each of its steps has made a trace entry (`run_extendsTrace`). -/
theorem TakesZeroOffset.repeats (h : TakesZeroOffset cond rs1 rs2 s) (k : Nat) :
    ∃ t, core.run k s = .next t ∧ t.run = .running ∧ t.pc = s.pc ∧ SameRegs s t ∧
      t.trace.length = s.trace.length + k := by
  obtain ⟨t, hrun, ht, hpc, hregs⟩ := h.run k
  exact ⟨t, hrun, ht.running, hpc, hregs, (run_extendsTrace hrun).length_running ht.running⟩

end

/-- Settles O45: each of the four takes a branch with offset 0. -/
theorem zeroOffsetBranchRepeats : Obligations.ZeroOffsetBranchRepeats := by
  intro s w rs1 rs2 hr hf hbranch
  rcases hbranch with ⟨hd, hc⟩ | ⟨hd, hc⟩ | ⟨hd, hc⟩ | ⟨hd, hc⟩
  · exact TakesZeroOffset.repeats ⟨hr, ⟨w, _, hf, hd, rfl⟩, (condEq_toNat_iff _ _).2 hc⟩
  · exact TakesZeroOffset.repeats ⟨hr, ⟨w, _, hf, hd, rfl⟩, (condNe_toNat_iff _ _).2 hc⟩
  · exact TakesZeroOffset.repeats ⟨hr, ⟨w, _, hf, hd, rfl⟩, (condLt_iff _ _).2 hc⟩
  · exact TakesZeroOffset.repeats ⟨hr, ⟨w, _, hf, hd, rfl⟩, (condGe_iff _ _).2 hc⟩

end Sys2Proof.Machine
end

section
/-! Proofs of the statements about the U family (`44_u_type.md`): the number of an extended 20-bit field, and that
`auipc` is `lui`. -/

namespace Sys2Proof.Machine

/-- The extension splits at the field's top bit, which is whether the field is below `2^19` (R71). -/
theorem toNat_qext32_imm20 (imm20 : BitVec 20) :
    (qext32 imm20).toNat = if imm20.toNat < 2 ^ 19 then imm20.toNat else imm20.toNat * 2 ^ 12 + 0xFFF := by
  obtain ⟨hclear, hset⟩ := quirkExtensionNumber 20 imm20 (by decide) (by decide)
  split
  case isTrue hlt => exact hclear hlt
  case isFalse hge => exact (hset (Nat.not_lt.1 hge)).1

/-- Settles O22: the register holds the extended field's own number. -/
theorem loadUpperResult : Obligations.LoadUpperResult := fun _ imm20 _ =>
  exec_writeReg_result rfl ((toNat_toBinary32_word (qext32 imm20)).trans (toNat_qext32_imm20 imm20))

/-- "Both opcodes treated identically" (R136). -/
theorem exec_auipc_eq_lui (rd : RegId) (imm20 : BitVec 20) (s : State) :
    exec (.auipc rd imm20) s = exec (.lui rd imm20) s := rfl

/-- Settles O23: the effect is that of `lui`, at whatever pc. -/
theorem addUpperPcResult : Obligations.AddUpperPcResult := by
  intro rd imm20 s
  rw [exec_auipc_eq_lui]
  exact loadUpperResult rd imm20 s

end Sys2Proof.Machine
end

section
/-! Proof of the statement about the J family (`45_j_type.md`): `jal` is an instance of the link-and-jump rule that
`jalr` has. -/

namespace Sys2Proof.Machine

/-- Settles O24: the link and the target are both sums over the `jal`'s own pc, the target kept unreduced. -/
theorem jumpAndLinkResult : Obligations.JumpAndLinkResult := fun _ _ _ => exec_link_result rfl

end Sys2Proof.Machine
end

section
/-! Proofs of the statements about the loop and the trace (`46_step_loop_trace.md`): the bound, the sentinel and the
dispatch of a step, the word placed where a step fetches, and the line of a trace entry. -/

namespace Sys2Proof.Machine

/-! ### The loop (R150 to R155) -/

/-- Every aligned address up to the table's last key is a key. -/
theorem exists_fetchWord {it : List Word} {a : Nat} (ht : it ≠ []) (hb : a ≤ 4 * (it.length - 1)) (h4 : a % 4 = 0) :
    ∃ w, fetchWord it a = some w := by
  have hpos : 0 < it.length := List.length_pos_iff.2 ht
  have hidx : a / 4 < it.length := by omega
  exact ⟨it[a / 4], fetchWord_eq_some.2 ⟨h4, List.getElem?_eq_getElem hidx⟩⟩

/-- Settles O29. -/
theorem boundStopsTheLoop : Obligations.BoundStopsTheLoop := by
  refine fun s hr ht => ⟨fun hb => step_bound hr ht hb, fun hb h4 => ?_⟩
  obtain ⟨w, hf⟩ := exists_fetchWord ht hb h4
  obtain ⟨-, hw⟩ := fetchWord_eq_some.1 hf
  exact ⟨w, hw, fun _ hd => step_decoded hr hf hd, fun _ hd => step_rejected hr hf hd⟩

/-- Settles O25: `HALT_WORD` decodes to the sentinel, whatever the state. -/
theorem sentinelHalts : Obligations.SentinelHalts :=
  ⟨fun _ => rfl, fun _ hr hf => step_decoded hr hf decode_haltWord⟩

/-- Settles O26. -/
theorem stepRunsDecodedInstruction : Obligations.StepRunsDecodedInstruction := fun _ _ _ => step_decoded

/-! ### A word placed where the step fetches (R152, R193) -/

theorem fetchWord_placeWord {a : Nat} (it : List Word) (w : Word) (h4 : a % 4 = 0) :
    fetchWord (placeWord it a w) a = some w := by
  have hidx : a / 4 < (it ++ List.replicate (a / 4 + 1 - it.length) 0#32).length := by
    rw [List.length_append, List.length_replicate]
    omega
  exact fetchWord_eq_some.2 ⟨h4, List.getElem?_set_self hidx⟩

theorem fetchKey_aligned (s : State) : s.fetchKey % 4 = 0 := by
  rw [State.fetchKey]
  split
  next h => exact h.1
  next => rfl

theorem decode_of_decodeTableWord {nbits w : Nat} {i : Instr} (h : decodeTableWord nbits w = some i) :
    decode (BitVec.ofNat 32 (w % 2 ^ nbits)) = .ok i := by
  rw [decodeTableWord, Option.ite_none_right_eq_some] at h
  obtain ⟨-, h⟩ := h
  cases hd : decode (BitVec.ofNat 32 (w % 2 ^ nbits)) with
  | ok j => rw [hd] at h; exact congrArg _ (Option.some.inj h)
  | error e => rw [hd] at h; cases h

/-- Settles O54: the key is aligned, so the fetch finds the placed word there. -/
theorem placedWordRuns : Obligations.PlacedWordRuns := fun s _ _ _ h =>
  step_decoded rfl (fetchWord_placeWord s.instrTable _ (fetchKey_aligned s)) (decode_of_decodeTableWord h)

/-! ### Binary digits (R161) -/

section
variable {n d : Nat}

@[simp] theorem length_binDigits (b : BitVec n) : (binDigits b).length = n := by simp [binDigits]

theorem getElem?_binDigits (b : BitVec n) (hd : d < n) : (binDigits b)[d]? = some (binDigit (b.getMsbD d)) := by
  simp [binDigits, hd]

theorem binDigit_injective : Function.Injective binDigit := by decide

/-- Digit `d` of a register's identifier, the most significant being digit 0. -/
theorem getMsbD_regBits (r : RegId) (hd : d < 5) : (regBits r).getMsbD d = decide (r.val / 2 ^ (4 - d) % 2 = 1) := by
  rw [BitVec.getMsbD, decide_eq_true hd, Bool.true_and, BitVec.getLsbD, Nat.testBit_eq_decide_div_mod_eq]
  rfl

end

/-! ### The line of a trace entry (R161) -/

/-- In a concatenation of blocks of one length `n`, block `i` begins at `n * i`. -/
theorem getElem?_flatMap_blocks {α β : Type} {f : α → List β} {n j : Nat} (hf : ∀ a, (f a).length = n) (hj : j < n)
    (l : List α) (i : Nat) : (l.flatMap f)[n * i + j]? = l[i]?.bind fun a => (f a)[j]? := by
  induction l generalizing i with
  | nil => rfl
  | cons a l ih =>
    rw [List.flatMap_cons]
    cases i with
    | zero => simp [List.getElem?_append_left, hf, hj]
    | succ i =>
      have hpos : n * (i + 1) + j - n = n * i + j := by rw [Nat.mul_succ]; omega
      rw [List.getElem?_append_right (by rw [hf, Nat.mul_succ]; omega), hf, hpos, ih, List.getElem?_cons_succ]

@[simp] theorem length_regToken (r : RegId) (v : Word) : (regToken r v).length = 38 := by simp [regToken]

@[simp] theorem length_programToken (v : Word) : (programToken v).length = 40 := by simp [programToken]

@[simp] theorem toList_line (e : TraceEntry) : e.line.toList = e.lineChars := String.toList_ofList

theorem length_lineChars (e : TraceEntry) : e.lineChars.length = 1288 := by
  simp [TraceEntry.lineChars, List.length_flatMap]

section
variable {d : Nat} (e : TraceEntry) (r : RegId)

theorem getElem?_lineChars_program (hd : d < 32) :
    e.lineChars[8 + d]? = some (binDigit (e.program.getMsbD d)) := by
  have hlt : 8 + d < (programToken e.program).length := by rw [length_programToken]; omega
  rw [TraceEntry.lineChars, List.getElem?_append_left hlt, programToken,
    List.getElem?_append_right (Nat.le_add_right 8 d), ← getElem?_binDigits _ hd]
  exact congrArg _ (Nat.add_sub_cancel_left 8 d)

/-- Behind the `program` token each register takes 39 characters, a space and its token. -/
theorem getElem?_lineChars_reg {k : Nat} (hk : k < 39) :
    e.lineChars[40 + 39 * r.val + k]? = (' ' :: regToken r e.regs[r])[k]? := by
  have hblock : ∀ q : RegId, (' ' :: regToken q e.regs[q]).length = 39 := fun q => by simp
  rw [TraceEntry.lineChars, List.getElem?_append_right (by rw [length_programToken]; omega), length_programToken,
    Nat.add_assoc, Nat.add_sub_cancel_left, getElem?_flatMap_blocks hblock hk]
  simp

theorem getElem?_lineChars_space : e.lineChars[40 + 39 * r.val]? = some ' ' :=
  getElem?_lineChars_reg e r (k := 0) (by decide)

theorem getElem?_lineChars_id (hd : d < 5) :
    e.lineChars[41 + 39 * r.val + d]? = some (binDigit ((regBits r).getMsbD d)) := by
  rw [show 41 + 39 * r.val + d = 40 + 39 * r.val + (d + 1) by omega, getElem?_lineChars_reg e r (by omega),
    List.getElem?_cons_succ, regToken, List.getElem?_append_left (by rwa [length_binDigits]), getElem?_binDigits _ hd]

theorem getElem?_lineChars_colon : e.lineChars[46 + 39 * r.val]? = some ':' := by
  rw [show 46 + 39 * r.val = 40 + 39 * r.val + 6 by omega, getElem?_lineChars_reg e r (by decide)]
  rfl

theorem getElem?_lineChars_value (hd : d < 32) :
    e.lineChars[47 + 39 * r.val + d]? = some (binDigit (e.regs[r].getMsbD d)) := by
  have hpos : d + 6 - 5 = d + 1 := by omega
  rw [show 47 + 39 * r.val + d = 40 + 39 * r.val + (d + 7) by omega, getElem?_lineChars_reg e r (by omega),
    List.getElem?_cons_succ, regToken, List.getElem?_append_right (by rw [length_binDigits]; omega), length_binDigits,
    hpos, List.getElem?_cons_succ, getElem?_binDigits _ hd]

end

/-- Settles O55. -/
theorem traceLineForm : Obligations.TraceLineForm := by
  intro e
  rw [toList_line]
  refine ⟨length_lineChars e, rfl, fun _ => getElem?_lineChars_program e, fun r =>
    ⟨getElem?_lineChars_space e r, fun d hd => ?_, getElem?_lineChars_colon e r,
      fun _ => getElem?_lineChars_value e r⟩⟩
  rw [getElem?_lineChars_id e r hd, getMsbD_regBits r hd]
  simp [binDigit]

/-- Settles O56: equal lines have equal digits, and the digits fix every bit of the slot and of each register. -/
theorem traceLineIsInjective : Obligations.TraceLineIsInjective := by
  intro e f h
  have hchars : e.lineChars = f.lineChars := by rw [← toList_line, h, toList_line]
  have hprogram : e.program = f.program := BitVec.eq_of_getMsbD_eq fun d hd => binDigit_injective <|
    Option.some.inj (by rw [← getElem?_lineChars_program e hd, ← getElem?_lineChars_program f hd, hchars])
  have hreg (r : RegId) : e.regs[r] = f.regs[r] := BitVec.eq_of_getMsbD_eq fun d hd => binDigit_injective <|
    Option.some.inj (by rw [← getElem?_lineChars_value e r hd, ← getElem?_lineChars_value f r hd, hchars])
  have hregs : e.regs = f.regs := Vector.ext fun k hk => hreg ⟨k, hk⟩
  exact congrArg₂ TraceEntry.mk hprogram hregs

end Sys2Proof.Machine
end

section
/-! Proofs of the statements about the events that end a step (`60_exceptions.md`): a step ends in the event its fixed
order of tests gives, and an aligned pc over a table that cannot fault is kept by every step. -/

namespace Sys2Proof.Machine

/-! ### No fault over a safe table (R171, R175, R194) -/

/-- An instruction that never faults makes no data access. -/
theorem dataAddress_of_neverFaults {i : Instr} (h : neverFaults i = true) (s : State) : dataAddress i s = none := by
  cases i with
  | lw | sw => cases h
  | _ => rfl

/-- The instruction a step fetches from a safe table never faults, since the fetched word is of the table. -/
theorem State.SafeTable.neverFaults_fetched {s : State} (h : s.SafeTable) {w : Word} {i : Instr}
    (hf : fetchWord s.instrTable s.pc = some w) (hd : decode w = .ok i) : neverFaults i = true := by
  obtain ⟨-, hw⟩ := fetchWord_eq_some.1 hf
  exact h.table_safe w (List.mem_of_getElem? hw) i hd

/-- A step that misaligns the pc runs a `jalr`, or a branch or jump by an offset that is not a multiple of 4
(`misalignedPcNeedsTransfer`), and a safe table holds none of these. -/
theorem State.SafeTable.step_pc_aligned {s t : State} (h : s.SafeTable) (hs : step s = .next t) : t.pc % 4 = 0 := by
  by_contra hpc
  obtain ⟨w, i, hf, hd, htransfer⟩ := misalignedPcNeedsTransfer s t hs h.pc_aligned hpc
  have hi := h.neverFaults_fetched hf hd
  rcases htransfer with ⟨rd, rs1, imm, rfl⟩ | ⟨rs1, rs2, imm, hbranch, hoffset⟩ | ⟨rd, imm, rfl, hoffset⟩
  · cases hi
  · rcases hbranch with rfl | rfl | rfl | rfl <;> exact hoffset (beq_iff_eq.1 hi)
  · exact hoffset (beq_iff_eq.1 hi)

/-- No step changes the instruction table (`20_memory.md` R54). -/
theorem step_keeps_table {s t : State} (h : step s = .next t) : t.instrTable = s.instrTable := by
  rcases step_next_halt_or_executed h with rfl | hexec
  · rfl
  · exact hexec.table

theorem step_keeps_safeTable {s t : State} (h : s.SafeTable) (hs : step s = .next t) : t.SafeTable where
  pc_aligned := h.step_pc_aligned hs
  table_safe := step_keeps_table hs ▸ h.table_safe

/-- With a table launched, an aligned pc inside the window fetches a word, and the word's instruction has no data
address to overflow. -/
theorem State.SafeTable.step_next {s : State} (h : s.SafeTable) (ht : s.instrTable ≠ []) :
    ∃ t, step s = .next t := by
  rcases step_cases s with ⟨-, e⟩ | ⟨-, hempty, -⟩ | ⟨-, -, -, e⟩ | ⟨-, -, hb, hnone, -⟩ | ⟨w, hr, -, hf, -⟩
  · exact ⟨_, e⟩
  · exact absurd hempty ht
  · exact ⟨_, e⟩
  · obtain ⟨w, hf⟩ := exists_fetchWord ht (Nat.not_lt.1 hb) h.pc_aligned
    cases hnone.symm.trans hf
  · rcases noWordIsIllegal s w hr hf with hnext | ⟨i, ea, hd, haddr, -, -⟩
    · exact hnext
    · cases (dataAddress_of_neverFaults (h.neverFaults_fetched hf hd) s).symm.trans haddr

/-- A machine without a table stands still or is refused; any other makes its step. -/
theorem State.SafeTable.step_ne_fault {s : State} (h : s.SafeTable) (f : Fault) : step s ≠ .fault f := by
  intro hfault
  have ht : s.instrTable ≠ [] := by
    intro hempty
    cases hr : s.run with
    | halted => cases (step_halted hr).symm.trans hfault
    | running => cases (step_noTable hr hempty).symm.trans hfault
  obtain ⟨t, hnext⟩ := h.step_next ht
  cases hnext.symm.trans hfault

/-- Settles O58. -/
theorem stepKeepsSafeTable : Obligations.StepKeepsSafeTable := fun _ h =>
  ⟨fun _ => step_keeps_safeTable h, h.step_ne_fault, h.step_next⟩

/-- A run over a safe table reaches no fault: each step keeps the table safe, and none faults. -/
theorem State.SafeTable.faultFree {s : State} (h : s.SafeTable) : FaultFree s := by
  intro k f
  induction k generalizing s with
  | zero => nofun
  | succ k ih =>
    cases hs : step s with
    | next t => rw [run_succ_next k hs]; exact ih (step_keeps_safeTable h hs)
    | fault g => exact absurd hs (h.step_ne_fault g)
    | refused r => rw [run_succ_refused k hs]; nofun

/-- Settles O46. -/
theorem alignedTablesNeverFault : Obligations.AlignedTablesNeverFault := fun _ hpc htable =>
  State.SafeTable.faultFree ⟨hpc, htable⟩

/-! ### The event that ends a step (R171, R173, R174) -/

/-- What a step from `s` answers when it ends in an event: the two halts change `run` only, the two faults answer no
state, and with no event the step is an executed one. -/
def State.EndsIn (s : State) (r : Result) : Option StopEvent → Prop
  | some .haltBound => r = .next s.halt
  | some .haltSentinel => r = .next s.halt
  | some (.fetchUnmapped a) => r = .fault (.fetchUnmapped a)
  | some (.addressOverflow a) => r = .fault (.addressOverflow a)
  | none => ∃ t, r = .next t ∧ Executed s t t.pc

/-- The sentinel is the only word that decodes to `halt` (R81). -/
theorem eq_haltWord_of_decode {w : Word} (h : decode w = .ok .halt) : w = Config.haltWord :=
  (encode_of_decode h).2.symm

/-- An instruction with a data address ends in the access at it, an executed step unless the address overflows. -/
theorem exec_eq_accessAt {i : Instr} {s : State} {ea : Nat} (h : dataAddress i s = some ea) :
    ∃ t, exec i s = accessAt ea t ∧ Executed s t t.pc := by
  cases i with
  | lw rd rs1 imm => cases h; exact ⟨_, rfl, executed_writeReg_retire s rd _ _⟩
  | sw rs1 rs2 imm => cases h; exact ⟨_, rfl, executed_writeMem_retire s _ _ _⟩
  | _ => cases h

/-- An instruction with no data address, but for `halt`, is an executed step. -/
theorem exec_executed_of_no_access {i : Instr} {s : State} (hi : i ≠ .halt) (h : dataAddress i s = none) :
    ∃ t, exec i s = .next t ∧ Executed s t t.pc := by
  rcases exec_cases i s with ⟨rfl, -⟩ | ⟨rd, v, npc, -, e⟩ | ⟨npc, -, e⟩ | ⟨rs1, rs2, imm, rfl, -, -⟩ |
    ⟨ea, haddr, -, -⟩
  · exact absurd rfl hi
  · exact ⟨_, e, executed_writeReg_retire s rd v npc⟩
  · exact ⟨_, e, executed_retire npc rfl rfl rfl⟩
  · cases h
  · cases h.symm.trans haddr

/-- A fetched word ends in its event: the sentinel first, then what the executor raises. -/
theorem runWord_endsIn_wordEvent (w : Word) (s : State) : s.EndsIn (runWord exec w s) (wordEvent w s) := by
  by_cases hw : w = Config.haltWord
  · rw [wordEvent, if_pos hw, hw]
    rfl
  rw [wordEvent, if_neg hw, runWord]
  cases hd : decode w with
  | error e => exact ⟨_, rfl, executed_retire _ rfl rfl rfl⟩
  | ok i =>
    have hi : i ≠ .halt := fun e => hw (eq_haltWord_of_decode (e ▸ hd))
    cases ha : dataAddress i s with
    | none =>
      simp only [ha]
      exact exec_executed_of_no_access hi ha
    | some ea =>
      obtain ⟨t, he, ht⟩ := exec_eq_accessAt ha
      simp only [ha, he]
      split
      next hea => exact accessAt_above hea
      next hea => exact ⟨t, accessAt_below (Nat.not_le.1 hea), ht⟩

/-- A step of a RUNNING machine with a table ends in its event: the bound first, then the fetch, then the word. -/
theorem step_endsIn_stopEvent {s : State} (hr : s.run = .running) (ht : s.instrTable ≠ []) :
    s.EndsIn (step s) s.stopEvent := by
  by_cases hb : s.lastPc < s.pc
  · rw [State.stopEvent, if_pos hb]
    exact step_bound hr ht hb
  rw [State.stopEvent, if_neg hb]
  cases hf : fetchWord s.instrTable s.pc with
  | none => exact step_unmapped hr ht hb hf
  | some w =>
    rw [step_fetched hr hf]
    exact runWord_endsIn_wordEvent w s

/-- Settles O32: one clause for each value of the event. -/
theorem stepEndsInItsEvent : Obligations.StepEndsInItsEvent := fun s hr ht =>
  have hends (event : Option StopEvent) (h : s.stopEvent = event) : s.EndsIn (step s) event :=
    h ▸ step_endsIn_stopEvent hr ht
  ⟨hends _, hends _, fun _ => hends _, fun _ => hends _, hends _⟩

end Sys2Proof.Machine
end
